-- ==== Sys2Proof/Word.lean ====
section
/-! DEFINITION. The two word types of the LS-8 core: the byte (a register, a memory cell, an immediate, an
operand byte: R7, R11, R16, R36) and the nine bits the program counter is held in (R8, R22). -/

namespace Sys2Proof

/-- An unsigned 8-bit value, 0..255 (R11): register contents, memory cells, immediates, operand bytes, opcodes. -/
abbrev Byte := BitVec 8

/-- The program counter's word: 0..256 held in 9 bits (R8, R22). -/
abbrev PcWord := BitVec 9

/-- A register index, 0..7, naming R0..R7 (R16). -/
abbrev Reg := Fin 8

/-- SP is another name for R7; the two are one storage cell (R12, R17). -/
abbrev sp : Reg := 7

end Sys2Proof
end

