-- ==== Sys2Proof/Config.lean ====
section
/-! DEFINITION. What an LS-8 implementation fixes: the two optional extensions (R9), and the host's own
open parameter for the text of a printed line (R8, D17). -/

namespace Sys2Proof

/-- The configuration `cfg` the step takes as an argument (R9): which optional extensions the decoder accepts.
The defaults give exactly the 12-instruction ISA of R2. -/
structure Cfg where
  /-- `EXT_COND_BRANCH`: the decoder accepts JEQ and JNE (R100, R101). -/
  extCondBranch : Bool := false
  /-- `EXT_DIV`: the decoder accepts DIV (R90). -/
  extDiv : Bool := false
  deriving DecidableEq, Repr

/-- The default configuration of R9: both extensions off. -/
def Cfg.default : Cfg := { extCondBranch := false, extDiv := false }

/-- Both extensions on: every row of the opcode table is accepted. -/
def Cfg.full : Cfg := { extCondBranch := true, extDiv := true }

/-- `PRN_LINE_TERMINATOR` (R8, D17): what the HOST writes after the digits of a printed value. The spec leaves it
OPEN, so it has no body here and nothing can be proved of its value. The core's state does not hold it and no
instruction reads it. -/
opaque Config.prnLineTerminator : List Char

end Sys2Proof
end

