-- ==== Sys2Proof/Syntax.lean ====
section
/-! DEFINITION. The instructions of the LS-8 core as syntax: one constructor per row of the opcode table (R60). A
register operand is kept as the WHOLE operand byte (R57): a byte above 7 names no register, and which bytes are
legal is checked where the spec checks it (R75, R76), not hidden by the type. -/

namespace Sys2Proof

/-- One constructor per row of the opcode table, with its operand bytes in the order a, b (R56, R59). -/
inductive Instr where
  /-- HLT: halt (R83). -/
  | hlt
  /-- LDI Ra, imm: load immediate (R84). -/
  | ldi (a imm : Byte)
  /-- PRN Ra: print register (R85). -/
  | prn (a : Byte)
  /-- ADD Ra, Rb (R86). -/
  | add (a b : Byte)
  /-- SUB Ra, Rb (R87). -/
  | sub (a b : Byte)
  /-- MUL Ra, Rb (R88). -/
  | mul (a b : Byte)
  /-- CMP Ra, Rb: compare (R89). -/
  | cmp (a b : Byte)
  /-- PUSH Ra: push register (R94). -/
  | push (a : Byte)
  /-- POP Ra: pop into register (R95). -/
  | pop (a : Byte)
  /-- CALL Ra: call subroutine (R97). -/
  | call (a : Byte)
  /-- RET: return from subroutine (R98). -/
  | ret
  /-- JMP Ra: jump (R99). -/
  | jmp (a : Byte)
  /-- DIV Ra, Rb: divide, of the extension `EXT_DIV` (R90). -/
  | div (a b : Byte)
  /-- JEQ Ra: jump if equal, of the extension `EXT_COND_BRANCH` (R100). -/
  | jeq (a : Byte)
  /-- JNE Ra: jump if not equal, of the extension `EXT_COND_BRANCH` (R101). -/
  | jne (a : Byte)
  deriving DecidableEq, Repr

/-- The rows of the opcode table without their operands: what the decoder's lookup of IR gives (R61). -/
inductive Op where
  | hlt | ldi | prn | add | sub | mul | cmp | push | pop | call | ret | jmp | div | jeq | jne
  deriving DecidableEq, Repr

/-- The four instruction formats (R56). -/
inductive Format where
  /-- Opcode alone. -/
  | f0
  /-- Opcode, register a. -/
  | f1r
  /-- Opcode, register a, register b. -/
  | f2rr
  /-- Opcode, register a, immediate b. -/
  | f2ri
  deriving DecidableEq, Repr

/-- Why a sequence of bytes does not decode. -/
inductive DecodeError where
  /-- There is no byte to read an opcode from. -/
  | noBytes
  /-- The opcode byte is not in the enabled opcode map (R71). -/
  | unknownOpcode (ir : Byte)
  /-- Operand byte `k` (1 or 2, the lowest that is missing) of the opcode `ir` is not there (R73). -/
  | missingOperand (ir : Byte) (k : Nat)
  deriving DecidableEq, Repr

end Sys2Proof
end

