-- ==== Sys2Proof/Decode.lean ====
section
/-! DEFINITION. The encoding of LS-8 instructions: the opcode map, the width field, the decoder (total on any bytes,
rejecting by name) and the encoder (R53-R65, R70-R74). Operand legality (R75, R76) is not the decoder's: it needs
no byte beyond the instruction and is tested by the meanings, after every operand byte has been fetched (R111). -/

namespace Sys2Proof

/-- The opcode map of R60. The source fixes HLT, LDI and PRN; the spec chose the other values (D2, D19, D20). -/
def Op.opcode : Op → Byte
  | .hlt => 0x01
  | .ldi => 0x82
  | .prn => 0x47
  | .add => 0xA0
  | .sub => 0xA1
  | .mul => 0xA2
  | .cmp => 0xA7
  | .push => 0x45
  | .pop => 0x46
  | .call => 0x50
  | .ret => 0x11
  | .jmp => 0x54
  | .div => 0xA3
  | .jeq => 0x55
  | .jne => 0x56

/-- The extension gate of R9: DIV needs `EXT_DIV`, JEQ and JNE need `EXT_COND_BRANCH`. -/
def Op.enabled (cfg : Cfg) : Op → Bool
  | .hlt => true
  | .ldi => true
  | .prn => true
  | .add => true
  | .sub => true
  | .mul => true
  | .cmp => true
  | .push => true
  | .pop => true
  | .call => true
  | .ret => true
  | .jmp => true
  | .div => cfg.extDiv
  | .jeq => cfg.extCondBranch
  | .jne => cfg.extCondBranch

/-- The opcode-table row of an instruction. -/
def Instr.op : Instr → Op
  | .hlt => .hlt
  | .ldi _ _ => .ldi
  | .prn _ => .prn
  | .add _ _ => .add
  | .sub _ _ => .sub
  | .mul _ _ => .mul
  | .cmp _ _ => .cmp
  | .push _ => .push
  | .pop _ => .pop
  | .call _ => .call
  | .ret => .ret
  | .jmp _ => .jmp
  | .div _ _ => .div
  | .jeq _ => .jeq
  | .jne _ => .jne

/-- The format column of R56 and R60. -/
def Op.format : Op → Format
  | .hlt => .f0
  | .ldi => .f2ri
  | .prn => .f1r
  | .add => .f2rr
  | .sub => .f2rr
  | .mul => .f2rr
  | .cmp => .f2rr
  | .push => .f1r
  | .pop => .f1r
  | .call => .f1r
  | .ret => .f0
  | .jmp => .f1r
  | .div => .f2rr
  | .jeq => .f1r
  | .jne => .f1r

/-- How many operand bytes a format has (R56). The machine never advances by it: widths come from the opcode's own
bits (R55, R72), and that the two agree is a theorem. -/
def Format.operandCount : Format → Nat
  | .f0 => 0
  | .f1r => 1
  | .f2rr => 2
  | .f2ri => 2

/-- The rows of the opcode map, in the table's order (R60). -/
def opcodeMap : List Op :=
  [.hlt, .ldi, .prn, .add, .sub, .mul, .cmp, .push, .pop, .call, .ret, .jmp, .div, .jeq, .jne]

/-- `N = IR[7:6]`, the operand count field (R54). -/
def operandCount (ir : Byte) : Nat := (ir.extractLsb 7 6).toNat

/-- `w = IR[7:6] + 1`, computed generically from the opcode byte (R55, R72). -/
def instrWidth (ir : Byte) : Nat := operandCount ir + 1

/-- The decoder's lookup: the whole byte against the enabled rows (R61-R63, R71). -/
def lookup (cfg : Cfg) (ir : Byte) : Option Op :=
  opcodeMap.find? fun o => o.enabled cfg && decide (o.opcode = ir)

/-- The instruction of a row with operand bytes `opa` (at pc+1) and `opb` (at pc+2); a row that has fewer operands
does not look at the rest (R59, R73). -/
def Op.withOperands (opa opb : Byte) : Op → Instr
  | .hlt => .hlt
  | .ldi => .ldi opa opb
  | .prn => .prn opa
  | .add => .add opa opb
  | .sub => .sub opa opb
  | .mul => .mul opa opb
  | .cmp => .cmp opa opb
  | .push => .push opa
  | .pop => .pop opa
  | .call => .call opa
  | .ret => .ret
  | .jmp => .jmp opa
  | .div => .div opa opb
  | .jeq => .jeq opa
  | .jne => .jne opa

/-- The decoder: opcode lookup, then the operand bytes the opcode's own width field asks for, the lowest missing one
reported first (R53, R61, R71-R73, R111). It gives the instruction and the bytes after it. -/
def decode (cfg : Cfg) : List Byte → Except DecodeError (Instr × List Byte)
  | [] => .error .noBytes
  | ir :: rest =>
    match lookup cfg ir with
    | none => .error (.unknownOpcode ir)
    | some o =>
      if rest.length < operandCount ir then .error (.missingOperand ir (rest.length + 1))
      else .ok (o.withOperands (rest.getD 0 0) (rest.getD 1 0), rest.drop (operandCount ir))

/-- The operand bytes of an instruction, a before b (R56). -/
def Instr.operandBytes : Instr → List Byte
  | .hlt => []
  | .ldi a imm => [a, imm]
  | .prn a => [a]
  | .add a b => [a, b]
  | .sub a b => [a, b]
  | .mul a b => [a, b]
  | .cmp a b => [a, b]
  | .push a => [a]
  | .pop a => [a]
  | .call a => [a]
  | .ret => []
  | .jmp a => [a]
  | .div a b => [a, b]
  | .jeq a => [a]
  | .jne a => [a]

/-- The encoder: the opcode byte, then the operand bytes, at ascending addresses (R42, R53, R56). -/
def encode (i : Instr) : List Byte := i.op.opcode :: i.operandBytes

/-- The bytes of an instruction whose bits are numbered as the opcode table numbers them: byte `k` is bits
`8k+7..8k`, only the low `nbits` bits are given, and every bit above them is 0, up to the longest instruction (three
bytes, R53). -/
def tableBytes (nbits w : Nat) : List Byte :=
  [BitVec.ofNat 8 (w % 2 ^ nbits), BitVec.ofNat 8 (w % 2 ^ nbits / 256), BitVec.ofNat 8 (w % 2 ^ nbits / 65536)]

/-- What the decoder reads from a word of the opcode table, with every row of the table enabled. -/
def decodeTableWord (nbits w : Nat) : Option Instr :=
  match decode Cfg.full (tableBytes nbits w) with
  | .ok (i, _) => some i
  | .error _ => none

end Sys2Proof
end

