-- ==== Sys2Proof/Machine/State.lean ====
section
/-! DEFINITION. The state of the LS-8 core: everything R31 lists, as plain data, with the configuration the step
reads (R9, R69), the ways a step can stop, and the state right after reset (R121, R122). -/

namespace Sys2Proof.Machine

/-- The condition-flag unit: three single bits with no byte layout (R26). -/
structure Flags where
  eq : Bool
  lt : Bool
  gt : Bool
  deriving DecidableEq, Repr

/-- The fault kinds a running program can raise, codes 1 to 9 of R105, each with the `info` R106 records for it. -/
inductive FaultCause where
  /-- Code 1: the opcode byte is not in the enabled opcode map (R71). -/
  | unknownOpcode
  /-- Code 2: a register operand byte above 7; info: that byte (R75). -/
  | illegalRegister (operand : Byte)
  /-- Code 3: the destination operand a is 7 (R76). -/
  | spWrite
  /-- Code 4: DIV with a zero divisor (R90). -/
  | divByZero
  /-- Code 5: an operand byte lies above address 255; info: that address (R73). -/
  | oorOperandFetch (addr : Nat)
  /-- Code 6: the sequential advance leaves 0..255; info: the next pc it would be (R77). -/
  | oorPc (next : Nat)
  /-- Code 7: CALL's return address does not fit a byte; info: that address (R97). -/
  | oorReturnAddress (ret : Nat)
  /-- Code 8: PUSH or CALL with SP = 0x00; info: the SP value (R94, R97). -/
  | oorStackOverflow (spValue : Byte)
  /-- Code 9: POP or RET with SP = 0xFF; info: the SP value (R95, R98). -/
  | oorStackUnderflow (spValue : Byte)
  deriving DecidableEq, Repr

/-- The fault record of R106: `kind` and `info` (together: `cause`), the faulting instruction's address and its
opcode byte. -/
structure FaultRec where
  cause : FaultCause
  pc : PcWord
  ir : Byte
  deriving DecidableEq, Repr

/-- Load errors, codes 10 and 11 of R105: they have no pc and no ir, because no cycle ran (R106, R107). -/
inductive LoadError where
  /-- Code 10: the image is longer than 256 bytes (R41). -/
  | imageTooLarge
  /-- Code 11: the program file is missing; the external loader detects it (R41). -/
  | imageMissing
  deriving DecidableEq, Repr

/-- The run status (R28). -/
inductive Status where
  | running
  /-- Terminal, entered only by HLT. -/
  | halted
  /-- Terminal, entered only by a fatal error. -/
  | faulted (record : FaultRec)
  deriving DecidableEq, Repr

/-- The memory array: the cells that do not hold `Memory.unlisted`, by rising address. -/
abbrev Memory := List Host.Cell

/-- What an address that is not listed reads as: every memory cell is 0 at reset (R37, R121). -/
def Memory.unlisted : Byte := 0

/-- The canonical form: addresses strictly rising and inside 0..255 (R36), no entry that an unlisted address would
read as anyway. Two memories in this form that read alike are equal lists. -/
abbrev Memory.wf (m : Memory) : Prop :=
  m.Pairwise (fun c d => c.1 < d.1) ∧ ∀ c ∈ m, c.1 < 256 ∧ c.2 ≠ Memory.unlisted

/-- The complete architectural state of R31, and the configuration the step is a function of (R69). -/
structure State where
  /-- R0 to R7; R7 is SP (R16, R17). -/
  regs : Vector Byte 8
  /-- The program counter, 0..256 in nine bits (R22). -/
  pc : PcWord
  /-- EQ, LT and GT (R26). -/
  flags : Flags
  /-- The 256 memory cells (R36). -/
  mem : Memory
  /-- Running, Halted or Faulted with its record (R28). -/
  status : Status
  /-- The output event log, oldest first (R29). -/
  out : List Byte
  /-- The model's own field: the configuration `cfg` of R9, which no step changes. -/
  cfg : Cfg
  deriving DecidableEq, Repr

/-- Why there is no next state. None of these is the end of an instruction: an instruction's faults are next states
whose status is Faulted (R113). -/
inductive Fault where
  /-- `step` on a Halted state, which has no step (R69, R120). Safe: the spec forbids a fetch there. -/
  | alreadyHalted
  /-- `step` on a Faulted state, which has no step (R69, R104). Safe: the spec forbids a fetch there. -/
  | alreadyFaulted (record : FaultRec)
  /-- `step` on a Running state whose pc is above 255: no run reaches one (R24), and memory has no such address
  (R33). Safe: it only stops. -/
  | pcOutsideMemory
  /-- `boot` and `loadProgram`: the load failed, and execution never starts (R41, R107). Safe: it is the spec's own
  report. -/
  | load (error : LoadError)
  deriving DecidableEq, Repr

/-- Why an instruction has no meaning in the model. -/
inductive Refusal where
  /-- `exec`, for an instruction that has no meaning yet. Safe: it only stops. No arm of this model answers it. -/
  | notModelled (mnemonic : String)
  deriving DecidableEq, Repr

/-- The reset state of R122 before any image is copied: memory and R0..R6 zero, SP = 0xF4, pc = 0, no flag set,
Running, nothing printed; and the default configuration of R9. -/
def State.reset : State where
  regs := #v[0, 0, 0, 0, 0, 0, 0, 0xF4]
  pc := 0
  flags := { eq := false, lt := false, gt := false }
  mem := []
  status := .running
  out := []
  cfg := Cfg.default

end Sys2Proof.Machine
end

