-- ==== Sys2Proof/Machine/Ops.lean ====
section
/-! DEFINITION. The named operations every meaning is written in: the memory port (R33, R38), the register file
(R16, R35), the sequencer (R77, R79), the stack (R93), the output log (R29), and TAKING A FAULT, the one shared
operation by which an instruction ends a run (R80, R104, R106, R113). There is no return from a fault (R114). -/

namespace Sys2Proof.Machine

/-- The byte at an address: its entry, or what an unlisted address reads as (R37, R38). -/
def Memory.read : Memory → Nat → Byte
  | [], _ => Memory.unlisted
  | (k, v) :: m, a => if k = a then v else Memory.read m a

/-- Enter a cell before the first one with a higher address. -/
def Memory.insert (a : Nat) (v : Byte) : Memory → Memory
  | [] => [(a, v)]
  | (k, x) :: m => if a < k then (a, v) :: (k, x) :: m else (k, x) :: Memory.insert a v m

/-- Store a byte, keeping the canonical form: the old entry goes, and the new one is entered unless an unlisted
address reads as it (R38). -/
def Memory.write (m : Memory) (a : Nat) (v : Byte) : Memory :=
  if v = Memory.unlisted then m.filter (fun c => c.1 ≠ a)
  else Memory.insert a v (m.filter (fun c => c.1 ≠ a))

/-- `MemRead(addr, 1)`; the port takes an 8-bit address, so none outside 0..255 can be presented (R33, R38). -/
def State.memRead (s : State) (addr : Byte) : Byte := Memory.read s.mem addr.toNat

/-- `MemWrite(addr, 1, v)` (R33, R38). -/
def State.memWrite (s : State) (addr v : Byte) : State :=
  { s with mem := Memory.write s.mem addr.toNat v }

/-- `x[r]` (R12, R16). -/
def State.reg (s : State) (r : Reg) : Byte := s.regs[r]

/-- `x[r] <- v`. No register is hardwired (R16); an instruction that may not write R7 has faulted before it comes
here (R19, R76). -/
def State.setReg (s : State) (r : Reg) (v : Byte) : State :=
  { s with regs := s.regs.set r v }

/-- `pc <- t` for the sequencer's three sources (R35, R77, R78). -/
def State.setPc (s : State) (t : PcWord) : State := { s with pc := t }

/-- A control-transfer target, an 8-bit register or stack byte, as a pc: always in 0..255 (R78). -/
def pcOfByte (t : Byte) : PcWord := t.setWidth 9

/-- The sequential advance `seq = pc + w`, with `w` read from the opcode byte `ir` itself; past 255 it faults and
never wraps (R24, R72, R77). -/
def seqPc (ir : Byte) (s : State) : Except FaultCause PcWord :=
  if s.pc.toNat + instrWidth ir > 255 then .error (.oorPc (s.pc.toNat + instrWidth ir))
  else .ok (BitVec.ofNat 9 (s.pc.toNat + instrWidth ir))

/-- CALL's return address `pc + w`, as the byte to be pushed; past 255 it faults (R97). -/
def returnAddress (ir : Byte) (s : State) : Except FaultCause Byte :=
  if s.pc.toNat + instrWidth ir > 255 then .error (.oorReturnAddress (s.pc.toNat + instrWidth ir))
  else .ok (BitVec.ofNat 8 (s.pc.toNat + instrWidth ir))

/-- The address a push writes: one below the stack pointer (R93, R94). -/
def pushAddress (s : State) : Byte := s.reg sp - 1

/-- Push a byte: decrement SP, then write at the new SP; SP = 0x00 overflows and does not wrap (R93, R94). -/
def pushByte (v : Byte) (s : State) : Except FaultCause State :=
  if s.reg sp = 0 then .error (.oorStackOverflow (s.reg sp))
  else .ok ((s.memWrite (pushAddress s) v).setReg sp (pushAddress s))

/-- The byte a pop reads, at the stack pointer; SP = 0xFF underflows and nothing is read (R93, R95). -/
def topOfStack (s : State) : Except FaultCause Byte :=
  if s.reg sp = 255 then .error (.oorStackUnderflow (s.reg sp)) else .ok (s.memRead (s.reg sp))

/-- The stack pointer after a pop; the popped cell keeps its value (R93, R95). -/
def State.dropTop (s : State) : State := s.setReg sp (s.reg sp + 1)

/-- `Output(v)`: append one value to the output event log (R12, R29). -/
def State.output (s : State) (v : Byte) : State := { s with out := s.out ++ [v] }

/-- TAKING A FAULT: status becomes Faulted with the record (kind and info, the faulting instruction's address, its
opcode byte), and every other piece of state stays as it was before the instruction (R80, R104, R106, R113). -/
def takeFault (ir : Byte) (c : FaultCause) (s : State) : State :=
  { s with status := .faulted { cause := c, pc := s.pc, ir := ir } }

/-- The commit: an instruction's rule either raises a fault, and then commits none of its writes, or commits all of
them together (R13, R80). `s` is the state before the instruction. -/
def commit (ir : Byte) (s : State) :
    Except FaultCause State → Host.Outcome State Fault Refusal
  | .ok t => .next t
  | .error c => .next (takeFault ir c s)

/-- The numeric code of a fault kind (R105). -/
def FaultCause.code : FaultCause → Nat
  | .unknownOpcode => 1
  | .illegalRegister _ => 2
  | .spWrite => 3
  | .divByZero => 4
  | .oorOperandFetch _ => 5
  | .oorPc _ => 6
  | .oorReturnAddress _ => 7
  | .oorStackOverflow _ => 8
  | .oorStackUnderflow _ => 9

/-- The numeric code of a load error (R105). -/
def LoadError.code : LoadError → Nat
  | .imageTooLarge => 10
  | .imageMissing => 11

/-- The `kind` field of the fault record, as its code (R106). -/
def FaultRec.kind (r : FaultRec) : Nat := r.cause.code

/-- The `info` field of the fault record, by kind (R106). -/
def FaultRec.info (r : FaultRec) : Option Nat :=
  match r.cause with
  | .unknownOpcode => none
  | .illegalRegister operand => some operand.toNat
  | .spWrite => none
  | .divByZero => none
  | .oorOperandFetch addr => some addr
  | .oorPc next => some next
  | .oorReturnAddress ret => some ret
  | .oorStackOverflow spValue => some spValue.toNat
  | .oorStackUnderflow spValue => some spValue.toNat

/-- Code 1 to 3: a decode error (R108). -/
def FaultCause.isDecodeError (c : FaultCause) : Bool := decide (1 ≤ c.code) && decide (c.code ≤ 3)

/-- Code 4: the arithmetic error (R109). -/
def FaultCause.isArithmeticError (c : FaultCause) : Bool := decide (c.code = 4)

/-- Codes 5 to 9: an out-of-range access (R110). -/
def FaultCause.isOutOfRange (c : FaultCause) : Bool := decide (5 ≤ c.code) && decide (c.code ≤ 9)

end Sys2Proof.Machine
end

