-- ==== Sys2Proof/Machine/Flags.lean ====
section
/-! DEFINITION. The condition-flag unit: the one flag computation, CMP's (R26, R89). -/

namespace Sys2Proof.Machine

/-- EQ, LT and GT of an unsigned comparison, left operand first; they are written as a group (R89). -/
def compareFlags (x y : Byte) : Flags where
  eq := decide (x.toNat = y.toNat)
  lt := decide (x.toNat < y.toNat)
  gt := decide (x.toNat > y.toNat)

/-- Write all three flags together (R26, R35). -/
def State.setFlags (s : State) (f : Flags) : State := { s with flags := f }

end Sys2Proof.Machine
end

