-- ==== Sys2Proof/Machine/Operands.lean ====
section
/-! DEFINITION. The operand forms of the LS-8 core: a whole-byte register index (R57, R75), a register index that is
a destination (R19, R76) and a whole-byte immediate (R58). -/

namespace Sys2Proof.Machine

/-- A register operand: the byte's unsigned value is the index, no bit is masked, and a byte above 7 faults
(R57, R75). -/
def regOperand (b : Byte) : Except FaultCause Reg :=
  if h : b.toNat < 8 then .ok ⟨b.toNat, h⟩ else .error (.illegalRegister b)

/-- A destination may not be R7 (R19, R76). Tested after every register operand has been found legal (R111). -/
def destOperand (r : Reg) : Except FaultCause Reg :=
  if r = sp then .error .spWrite else .ok r

/-- An immediate operand: the whole byte, neither extended, scaled nor shifted (R58). -/
def immOperand (b : Byte) : Byte := b

end Sys2Proof.Machine
end

