-- ==== Sys2Proof/Machine/Alu.lean ====
section
/-! DEFINITION. The ALU and its instructions: ADD, SUB, MUL, CMP and the extension's DIV (42_alu.md). Each result is
the exact mathematical one, narrowed at the end (R20, R91). -/

namespace Sys2Proof.Machine

/-- The exact sum modulo 256 (R86, R91). -/
def aluAdd (x y : Byte) : Byte := BitVec.ofNat 8 (x.toNat + y.toNat)

/-- The exact difference modulo 256, in 0..255 (R87, R91). -/
def aluSub (x y : Byte) : Byte := BitVec.ofInt 8 ((x.toNat : Int) - (y.toNat : Int))

/-- The low 8 bits of the exact product (R88, R91). -/
def aluMul (x y : Byte) : Byte := BitVec.ofNat 8 (x.toNat * y.toNat)

/-- The floor of the exact quotient; a zero divisor faults (R90). -/
def aluDiv (x y : Byte) : Except FaultCause Byte :=
  if y = 0 then .error .divByZero else .ok (BitVec.ofNat 8 (x.toNat / y.toNat))

/-- What the two-register forms that write Ra share: both operands legal, a before b; a not R7; the operation's own
fault; the advance; then the write (R13, R59, R111). -/
def aluWrite (ir : Byte) (f : Byte → Byte → Except FaultCause Byte) (a b : Byte) (s : State) :
    Except FaultCause State := do
  let ra ← regOperand a
  let rb ← regOperand b
  let rd ← destOperand ra
  let v ← f (s.reg ra) (s.reg rb)
  let next ← seqPc ir s
  return (s.setReg rd v).setPc next

/-- ADD Ra, Rb (R86). -/
def execAdd (a b : Byte) (s : State) : Host.Outcome State Fault Refusal :=
  commit Op.add.opcode s (aluWrite Op.add.opcode (fun x y => .ok (aluAdd x y)) a b s)

/-- SUB Ra, Rb (R87). -/
def execSub (a b : Byte) (s : State) : Host.Outcome State Fault Refusal :=
  commit Op.sub.opcode s (aluWrite Op.sub.opcode (fun x y => .ok (aluSub x y)) a b s)

/-- MUL Ra, Rb (R88). -/
def execMul (a b : Byte) (s : State) : Host.Outcome State Fault Refusal :=
  commit Op.mul.opcode s (aluWrite Op.mul.opcode (fun x y => .ok (aluMul x y)) a b s)

/-- CMP Ra, Rb (R89): it writes no register, so a = 7 is legal. -/
def execCmp (a b : Byte) (s : State) : Host.Outcome State Fault Refusal :=
  commit Op.cmp.opcode s do
    let ra ← regOperand a
    let rb ← regOperand b
    let next ← seqPc Op.cmp.opcode s
    return (s.setFlags (compareFlags (s.reg ra) (s.reg rb))).setPc next

/-- DIV Ra, Rb (R90): a zero divisor is reported before the advance. -/
def execDiv (a b : Byte) (s : State) : Host.Outcome State Fault Refusal :=
  commit Op.div.opcode s (aluWrite Op.div.opcode aluDiv a b s)

end Sys2Proof.Machine
end

