-- ==== Sys2Proof/Machine/Control.lean ====
section
/-! DEFINITION. Machine control, load-immediate and print: HLT, LDI, PRN (41_machine_and_load.md). -/

namespace Sys2Proof.Machine

/-- HLT (R79, R83): pc advances by one with no range check and may reach 256; status becomes Halted. -/
def execHlt (s : State) : Host.Outcome State Fault Refusal :=
  commit Op.hlt.opcode s (.ok { s with pc := s.pc + 1, status := .halted })

/-- LDI Ra, imm (R84). -/
def execLdi (a imm : Byte) (s : State) : Host.Outcome State Fault Refusal :=
  commit Op.ldi.opcode s do
    let ra ← regOperand a
    let rd ← destOperand ra
    let next ← seqPc Op.ldi.opcode s
    return (s.setReg rd (immOperand imm)).setPc next

/-- PRN Ra (R85). -/
def execPrn (a : Byte) (s : State) : Host.Outcome State Fault Refusal :=
  commit Op.prn.opcode s do
    let ra ← regOperand a
    let next ← seqPc Op.prn.opcode s
    return (s.output (s.reg ra)).setPc next

end Sys2Proof.Machine
end

