-- ==== Sys2Proof/Machine/Stack.lean ====
section
/-! DEFINITION. The stack instructions PUSH and POP (43_stack.md). -/

namespace Sys2Proof.Machine

/-- PUSH Ra (R94): the register is read before SP changes, so PUSH R7 stores the old SP (D14). -/
def execPush (a : Byte) (s : State) : Host.Outcome State Fault Refusal :=
  commit Op.push.opcode s do
    let ra ← regOperand a
    let t ← pushByte (s.reg ra) s
    let next ← seqPc Op.push.opcode s
    return t.setPc next

/-- POP Ra (R95). -/
def execPop (a : Byte) (s : State) : Host.Outcome State Fault Refusal :=
  commit Op.pop.opcode s do
    let ra ← regOperand a
    let rd ← destOperand ra
    let v ← topOfStack s
    let next ← seqPc Op.pop.opcode s
    return ((s.setReg rd v).dropTop).setPc next

end Sys2Proof.Machine
end

