-- ==== Sys2Proof/Machine/Transfer.lean ====
section
/-! DEFINITION. Control transfer: CALL, RET, JMP, and the extension's JEQ and JNE (44_control_transfer.md). A transfer
writes pc directly and does not also advance (R78). -/

namespace Sys2Proof.Machine

/-- CALL Ra (R97): the target is read before SP changes; the return address is checked before the stack. -/
def execCall (a : Byte) (s : State) : Host.Outcome State Fault Refusal :=
  commit Op.call.opcode s do
    let ra ← regOperand a
    let ret ← returnAddress Op.call.opcode s
    let t ← pushByte ret s
    return t.setPc (pcOfByte (s.reg ra))

/-- RET (R98). -/
def execRet (s : State) : Host.Outcome State Fault Refusal :=
  commit Op.ret.opcode s do
    let t ← topOfStack s
    return s.dropTop.setPc (pcOfByte t)

/-- JMP Ra (R99): no advance, so no range check. -/
def execJmp (a : Byte) (s : State) : Host.Outcome State Fault Refusal :=
  commit Op.jmp.opcode s do
    let ra ← regOperand a
    return s.setPc (pcOfByte (s.reg ra))

/-- What JEQ and JNE share: taken, pc becomes Ra; not taken, the sequential advance with its check (R77, R78). -/
def branchIf (taken : Bool) (ir a : Byte) (s : State) : Except FaultCause State := do
  let ra ← regOperand a
  if taken then return s.setPc (pcOfByte (s.reg ra))
  else
    let next ← seqPc ir s
    return s.setPc next

/-- JEQ Ra (R100). -/
def execJeq (a : Byte) (s : State) : Host.Outcome State Fault Refusal :=
  commit Op.jeq.opcode s (branchIf s.flags.eq Op.jeq.opcode a s)

/-- JNE Ra (R101). -/
def execJne (a : Byte) (s : State) : Host.Outcome State Fault Refusal :=
  commit Op.jne.opcode s (branchIf (!s.flags.eq) Op.jne.opcode a s)

end Sys2Proof.Machine
end

