-- ==== Sys2Proof/Machine/Fetch.lean ====
section
/-! DEFINITION. Fetching an instruction's bytes from the one memory (R51, R70, R73), what a failed fetch or decode
raises (R71, R73, R82), and placing a program image or one instruction word in memory (R40). -/

namespace Sys2Proof.Machine

/-- The bytes an instruction at pc could have: those at pc, pc+1 and pc+2 that lie inside 0..255. How many of them
the instruction has, its opcode says; a read has no side effect, so a byte beyond the width is as good as not read
(R73, R81). -/
def fetchBytes (s : State) : List Byte :=
  (List.range (min 3 (256 - s.pc.toNat))).map fun k => Memory.read s.mem (s.pc.toNat + k)

/-- What the step answers when the bytes at pc give no instruction: UNKNOWN_OPCODE (R71) or OOR_OPERAND_FETCH at the
lowest address above 255 (R73). No byte at all means a pc that a Running machine never has (R24, R70). -/
def fetchFault (e : DecodeError) (s : State) : Host.Outcome State Fault Refusal :=
  match e with
  | .noBytes => .fault .pcOutsideMemory
  | .unknownOpcode ir => .next (takeFault ir .unknownOpcode s)
  | .missingOperand ir k => .next (takeFault ir (.oorOperandFetch (s.pc.toNat + k)) s)

/-- Store bytes at ascending addresses from `a`; a byte that would lie above 255 is dropped, since memory has no
such cell. -/
def storeBytes (a : Nat) : List Byte → Memory → Memory
  | [], m => m
  | b :: bs, m => storeBytes (a + 1) bs (if a < 256 then Memory.write m a b else m)

/-- `loadProgram(bytes)` (R37, R40, R41): the image at address 0 upward over whatever was there; more than 256 bytes
is a load error, and no cycle executes. -/
def loadProgram (img : List Byte) (s : State) : Host.Outcome State Fault Refusal :=
  if img.length > 256 then .fault (.load .imageTooLarge)
  else .next { s with mem := storeBytes 0 img s.mem }

/-- The whole of R121: a machine instance is created, and the image the external loader hands over is copied. `none`
is the loader's report that the program file is missing (R41). -/
def boot (cfg : Cfg) (img : Option (List Byte)) : Host.Outcome State Fault Refusal :=
  match img with
  | none => .fault (.load .imageMissing)
  | some bytes => loadProgram bytes { State.reset with cfg := cfg }

/-- The configuration under which an opcode byte's row is accepted: the extension it needs, if any, is switched on
(R9). -/
def Cfg.admitting (cfg : Cfg) (ir : Byte) : Cfg where
  extCondBranch := cfg.extCondBranch || decide (ir = Op.jeq.opcode) || decide (ir = Op.jne.opcode)
  extDiv := cfg.extDiv || decide (ir = Op.div.opcode)

/-- One instruction word of the opcode table placed at pc, in a machine that has the extension its opcode belongs
to. -/
def placeWord (s : State) (nbits w : Nat) : State :=
  { s with
    mem := storeBytes s.pc.toNat (tableBytes nbits w) s.mem
    cfg := Cfg.admitting s.cfg ((tableBytes nbits w).getD 0 0) }

end Sys2Proof.Machine
end

