-- ==== Sys2Proof/Machine/Step.lean ====
section
/-! DEFINITION. One step: one whole instruction (R69, R82). -/

namespace Sys2Proof.Machine

/-- One pass of the fetch-decode-execute loop. Only a Running state has a step; a fault of the instruction is a next
state whose status is Faulted (R28, R69, R80, R82). -/
def step (s : State) : Host.Outcome State Fault Refusal :=
  match s.status with
  | .halted => .fault .alreadyHalted
  | .faulted r => .fault (.alreadyFaulted r)
  | .running =>
    match decode s.cfg (fetchBytes s) with
    | .ok (i, _) => exec i s
    | .error e => fetchFault e s

/-- `s` with a word of the opcode table stored where `step` fetches next. It stands for the loader's placing of the
program from outside the machine (R40). -/
def State.withFetchWord (s : State) (nbits w : Nat) : State := placeWord s nbits w

end Sys2Proof.Machine
end

