-- ==== Sys2Proof/Machine/Asm.lean ====
section
/-! DEFINITION. The assembler syntax of R66 (and R15): a notation for instructions, read and written. The step does not
use it. There are no pseudo-instructions (R67). -/

namespace Sys2Proof.Machine

/-- The mnemonic's letters (R60, R66). -/
def mnemonic : Op → List Char
  | .hlt => ['H', 'L', 'T']
  | .ldi => ['L', 'D', 'I']
  | .prn => ['P', 'R', 'N']
  | .add => ['A', 'D', 'D']
  | .sub => ['S', 'U', 'B']
  | .mul => ['M', 'U', 'L']
  | .cmp => ['C', 'M', 'P']
  | .push => ['P', 'U', 'S', 'H']
  | .pop => ['P', 'O', 'P']
  | .call => ['C', 'A', 'L', 'L']
  | .ret => ['R', 'E', 'T']
  | .jmp => ['J', 'M', 'P']
  | .div => ['D', 'I', 'V']
  | .jeq => ['J', 'E', 'Q']
  | .jne => ['J', 'N', 'E']

/-- A register's name, `R0` to `R7`. -/
def registerName (b : Byte) : List Char := 'R' :: Nat.toDigits 10 b.toNat

/-- An instruction as the mnemonic and its operands in the order a, b, separated by a comma (R66). Of the spellings R66
allows it writes an immediate in decimal and R7 as `R7` (DESIGN CHOICE, safe: notes/assumptions/18.md). -/
def asmText (i : Instr) : List Char :=
  mnemonic i.op ++
    match i.op.format, i.operandBytes with
    | .f1r, [a] => ' ' :: registerName a
    | .f2rr, [a, b] => ' ' :: registerName a ++ ',' :: registerName b
    | .f2ri, [a, imm] => ' ' :: registerName a ++ ',' :: Nat.toDigits 10 imm.toNat
    | _, _ => []

/-- Drop each comment. It starts at `#` (R66). DESIGN CHOICE, safe: R66 does not say where it ends; here it ends at the
new line, which still separates instructions, and not at `;` (notes/assumptions/18.md). -/
def dropComments : Bool → List Char → List Char
  | _, [] => []
  | inComment, c :: cs =>
    if c = '\n' then c :: dropComments false cs
    else if inComment || c == '#' then dropComments true cs
    else c :: dropComments false cs

/-- The pieces between separators. -/
def splitAtChars (isSep : Char → Bool) : List Char → List (List Char)
  | [] => [[]]
  | c :: cs =>
    if isSep c then [] :: splitAtChars isSep cs
    else
      match splitAtChars isSep cs with
      | [] => [[c]]
      | piece :: pieces => (c :: piece) :: pieces

/-- White space within a line (DESIGN CHOICE, safe: notes/assumptions/18.md). -/
def isBlank (c : Char) : Bool := c == ' ' || c == '\t' || c == '\r'

/-- Without white space at either end. -/
def trimBlanks (cs : List Char) : List Char :=
  ((cs.dropWhile isBlank).reverse.dropWhile isBlank).reverse

/-- The value of a digit, decimal or hexadecimal. -/
def digitValue (c : Char) : Option Nat :=
  if '0' ≤ c ∧ c ≤ '9' then some (c.toNat - '0'.toNat)
  else if 'a' ≤ c ∧ c ≤ 'f' then some (c.toNat - 'a'.toNat + 10)
  else if 'A' ≤ c ∧ c ≤ 'F' then some (c.toNat - 'A'.toNat + 10)
  else none

/-- A numeral in a base, most significant digit first, read onto what has been read before it. -/
def readDigits (base : Nat) : Nat → List Char → Option Nat
  | acc, [] => some acc
  | acc, c :: cs =>
    match digitValue c with
    | some d => if d < base then readDigits base (acc * base + d) cs else none
    | none => none

/-- A numeral of at least one digit whose value is a byte; a larger value is no immediate (DESIGN CHOICE, safe:
notes/assumptions/18.md). -/
def readByte (base : Nat) (cs : List Char) : Option Byte :=
  match cs with
  | [] => none
  | _ :: _ =>
    match readDigits base 0 cs with
    | some n => if n < 256 then some (BitVec.ofNat 8 n) else none
    | none => none

/-- An immediate: decimal, or with a `0x` or `0b` prefix (R66). -/
def readImmediate : List Char → Option Byte
  | '0' :: 'x' :: cs => readByte 16 cs
  | '0' :: 'b' :: cs => readByte 2 cs
  | cs => readByte 10 cs

/-- A register: `R0` to `R7`, or `SP` for R7 (R15, R66). -/
def readRegister : List Char → Option Byte
  | ['R', c] =>
    match digitValue c with
    | some d => if d < 8 then some (BitVec.ofNat 8 d) else none
    | none => none
  | ['S', 'P'] => some 7
  | _ => none

/-- The row whose mnemonic is written. -/
def readMnemonic (cs : List Char) : Option Op := opcodeMap.find? fun o => mnemonic o == cs

/-- One instruction, without separators or comments around it (R66). -/
def readInstr (cs : List Char) : Option Instr :=
  let word := cs.takeWhile (fun c => !isBlank c)
  let rest := trimBlanks (cs.dropWhile (fun c => !isBlank c))
  let operands := if rest.isEmpty then [] else (splitAtChars (· == ',') rest).map trimBlanks
  match readMnemonic word with
  | none => none
  | some o =>
    match o.format, operands with
    | .f0, [] => some (o.withOperands 0 0)
    | .f1r, [a] => (readRegister a).map fun ra => o.withOperands ra 0
    | .f2rr, [a, b] => (readRegister a).bind fun ra => (readRegister b).map fun rb => o.withOperands ra rb
    | .f2ri, [a, b] => (readRegister a).bind fun ra => (readImmediate b).map fun imm => o.withOperands ra imm
    | _, _ => none

/-- The pieces of a program text that are not empty: instructions are separated by `;` or a new line (R66). -/
def statements (text : List Char) : List (List Char) :=
  ((splitAtChars (fun c => c == ';' || c == '\n') (dropComments false text)).map trimBlanks).filter
    fun cs => !cs.isEmpty

/-- Read every piece, or none if one is not an instruction (DESIGN CHOICE, safe: notes/assumptions/18.md). -/
def readAll : List (List Char) → Option (List Instr)
  | [] => some []
  | cs :: rest => (readInstr cs).bind fun i => (readAll rest).map fun is => i :: is

/-- A program text as instructions (R66). -/
def assemble (text : List Char) : Option (List Instr) := readAll (statements text)

/-- The memory image of a list of instructions: their encodings one after the other (R42, R53). -/
def imageOf (is : List Instr) : List Byte := is.flatMap encode

end Sys2Proof.Machine
end

