-- ==== Sys2Proof/Machine/Run.lean ====
section
/-! DEFINITION. What the host sees of a run (R34, R124, R125, R130): the run under fuel, how it ended, and the text of
the printed values (R29, R85). -/

namespace Sys2Proof.Machine

/-- A terminal state: Halted or Faulted (R28, R125). -/
def State.terminal (s : State) : Bool :=
  match s.status with
  | .running => false
  | .halted => true
  | .faulted _ => true

/-- At most `fuel` steps, until a terminal state. `none` is "no verdict": the run has not ended within the fuel
(R130). -/
def runFor : Nat → State → Option State
  | 0, s => if s.terminal then some s else none
  | fuel + 1, s =>
    if s.terminal then some s
    else
      match step s with
      | .next t => runFor fuel t
      | .fault _ => none
      | .refused _ => none

/-- The unsigned decimal digits of a printed value, with no leading zeros (R29, R85). -/
def decimalDigits (v : Byte) : List Char := Nat.toDigits 10 v.toNat

/-- One printed line: the digits, then the host's own line terminator (R29, D17). -/
def consoleLine (v : Byte) : List Char := decimalDigits v ++ Config.prnLineTerminator

/-- What the host has printed: one line for each output event, in order (R29, R124). -/
def consoleText (s : State) : List Char := s.out.flatMap consoleLine

end Sys2Proof.Machine
end

