-- ==== Sys2Proof/Safety.lean ====
section
/-! DEFINITION. What claims about runs are stated in: the invariant of every state of a run (R22, R24, R26, R36, R80)
and the states a run reaches. A run is safe while it stays in the invariant; it ends only Halted or Faulted (R125). -/

namespace Sys2Proof.Machine

/-- At most one flag is set (R26, R27). -/
def Flags.atMostOne (f : Flags) : Prop :=
  ¬(f.eq ∧ f.lt) ∧ ¬(f.eq ∧ f.gt) ∧ ¬(f.lt ∧ f.gt)

/-- The pc's range by status: 0..256, and 256 only in the Halted state (R22, R24, R104). -/
def State.pcInRange (s : State) : Prop :=
  s.pc.toNat ≤ 256 ∧ (s.status ≠ .halted → s.pc.toNat ≤ 255)

/-- A fault record names the pc the machine stands at (R80, R104, R106). -/
def State.recordInPlace (s : State) : Prop :=
  ∀ r, s.status = .faulted r → r.pc = s.pc

/-- What holds at reset and is kept by every step. -/
structure State.Inv (s : State) : Prop where
  memory : Memory.wf s.mem
  pc : s.pcInRange
  flags : s.flags.atMostOne
  record : s.recordInPlace

/-- A state some number of steps after `s`. -/
inductive Reaches (s : State) : State → Prop where
  | refl : Reaches s s
  | tail {t u : State} : Reaches s t → step t = .next u → Reaches s u

end Sys2Proof.Machine
end

