-- ==== Sys2Proof/WellFormed.lean ====
section
/-! DEFINITION. Which instructions are well formed: every register operand names a register (R57, R75), the
destination of an instruction that writes register a is not R7 (R19, R76), and the extension the instruction
belongs to is enabled (R9). The machine does not assume it: it faults, as the spec says, on what is not. -/

namespace Sys2Proof

/-- The operand bytes the instruction's format marks as registers, a before b (R56, R75). -/
def Instr.registerOperands : Instr → List Byte
  | .hlt => []
  | .ldi a _ => [a]
  | .prn a => [a]
  | .add a b => [a, b]
  | .sub a b => [a, b]
  | .mul a b => [a, b]
  | .cmp a b => [a, b]
  | .push a => [a]
  | .pop a => [a]
  | .call a => [a]
  | .ret => []
  | .jmp a => [a]
  | .div a b => [a, b]
  | .jeq a => [a]
  | .jne a => [a]

/-- Operand a where it is a destination: LDI, ADD, SUB, MUL, DIV and POP (R18, R76). -/
def Instr.destination : Instr → Option Byte
  | .hlt => none
  | .ldi a _ => some a
  | .prn _ => none
  | .add a _ => some a
  | .sub a _ => some a
  | .mul a _ => some a
  | .cmp _ _ => none
  | .push _ => none
  | .pop a => some a
  | .call _ => none
  | .ret => none
  | .jmp _ => none
  | .div a _ => some a
  | .jeq _ => none
  | .jne _ => none

/-- Every register operand byte is 0..7 (R57, R75). -/
def Instr.registersLegal (i : Instr) : Bool :=
  i.registerOperands.all fun r => decide (r.toNat < 8)

/-- The destination, if there is one, is not R7 (R19, R76). -/
def Instr.destinationLegal (i : Instr) : Bool :=
  decide (i.destination ≠ some 7)

/-- Well formed under `cfg`: enabled, with legal registers and a legal destination. -/
def Instr.wf (cfg : Cfg) (i : Instr) : Bool :=
  i.op.enabled cfg && i.registersLegal && i.destinationLegal

end Sys2Proof
end

