-- ==== Sys2Proof/Certificates/Slice0/Obligations.lean ====
section
/-! DEFINITION. The statements for the provers. First the vocabulary they share, then the statements: the encoding,
the step, one per instruction, then the whole machine, the load, the run and the notation. -/

namespace Sys2Proof.Claims

open Sys2Proof.Machine

/-- The faulted state: only `status` differs, and the record names the cause, the pc and the opcode byte
(R80, R104, R106). -/
def faultState (s : State) (c : FaultCause) (ir : Byte) : State :=
  { s with status := .faulted { cause := c, pc := s.pc, ir := ir } }

/-- Every register but those named holds what it held. -/
def RegsKeptBut (s t : State) (changed : List Reg) : Prop :=
  ∀ r : Reg, r ∉ changed → t.reg r = s.reg r

/-- Every byte of memory reads as it did. -/
def MemoryKept (s t : State) : Prop := ∀ a : Nat, Memory.read t.mem a = Memory.read s.mem a

/-- Every byte of memory but the one at `addr` reads as it did. -/
def MemoryKeptBut (s t : State) (addr : Byte) : Prop :=
  ∀ a : Nat, a ≠ addr.toNat → Memory.read t.mem a = Memory.read s.mem a

/-- No flag changed. -/
def FlagsKept (s t : State) : Prop := t.flags = s.flags

/-- The machine goes on, with the same configuration. -/
def StillGoing (s t : State) : Prop := t.status = s.status ∧ t.cfg = s.cfg

/-- The machine is running at an address of memory that holds `ir`. -/
abbrev AtOpcode (s : State) (ir : Byte) : Prop :=
  s.status = .running ∧ s.pc.toNat ≤ 255 ∧ Memory.read s.mem s.pc.toNat = ir

/-- The byte `k` places after the opcode byte. -/
def operandAt (s : State) (k : Nat) : Byte := Memory.read s.mem (s.pc.toNat + k)

/-- How the step comes to an instruction with opcode byte `ir` and `n` operand bytes, accepted where `enabled` holds
of the configuration: UNKNOWN_OPCODE where it does not hold; OOR_OPERAND_FETCH, at the lowest address that is not
there, where an operand byte lies above 255; else the instruction with the operand bytes at pc+1 and pc+2. -/
def Fetches (enabled : Cfg → Bool) (ir : Byte) (n : Nat) (mk : Byte → Byte → Instr) : Prop :=
  ∀ s : State, AtOpcode s ir →
    (enabled s.cfg = false → step s = .next (faultState s .unknownOpcode ir)) ∧
    (enabled s.cfg = true → s.pc.toNat + n > 255 →
      step s = .next (faultState s (.oorOperandFetch 256) ir)) ∧
    (enabled s.cfg = true → s.pc.toNat + n ≤ 255 →
      step s = exec (mk (operandAt s 1) (operandAt s 2)) s)

/-- The operand faults of a two-register form that writes Ra, and its advance past 255 where `good` holds of the two
operand values, in the order of R111. -/
def TwoRegisterFaults (mk : Byte → Byte → Instr) (ir : Byte) (good : Byte → Byte → Prop) : Prop :=
  ∀ (a b : Byte) (s : State),
    (7 < a.toNat → exec (mk a b) s = .next (faultState s (.illegalRegister a) ir)) ∧
    (a.toNat ≤ 7 → 7 < b.toNat → exec (mk a b) s = .next (faultState s (.illegalRegister b) ir)) ∧
    (a.toNat = 7 → b.toNat ≤ 7 → exec (mk a b) s = .next (faultState s .spWrite ir)) ∧
    (∀ ra rb : Reg, ra.val = a.toNat → rb.val = b.toNat → ra ≠ sp → good (s.reg ra) (s.reg rb) →
      s.pc.toNat + 3 > 255 → exec (mk a b) s = .next (faultState s (.oorPc (s.pc.toNat + 3)) ir))

/-- A two-register form that completes where `good` holds of the two operand values: Ra becomes `result` of them, both
read before the write, pc advances by 3, and nothing else changes. -/
def TwoRegisterResult (mk : Byte → Byte → Instr) (good : Byte → Byte → Prop)
    (result : Int → Int → Int) : Prop :=
  ∀ (a b : Byte) (s : State) (ra rb : Reg), ra.val = a.toNat → rb.val = b.toNat → ra ≠ sp →
    good (s.reg ra) (s.reg rb) → s.pc.toNat + 3 ≤ 255 →
    ∃ t, exec (mk a b) s = .next t ∧
      ((t.reg ra).toNat : Int) = result (s.reg ra).toNat (s.reg rb).toNat ∧
      t.pc.toNat = s.pc.toNat + 3 ∧
      RegsKeptBut s t [ra] ∧ MemoryKept s t ∧ FlagsKept s t ∧ t.out = s.out ∧ StillGoing s t

/-- A conditional branch: taken where `taken` holds of the flags, to the address in Ra; else the advance by 2. -/
def BranchesIf (mk : Byte → Instr) (ir : Byte) (taken : Flags → Bool) : Prop :=
  ∀ (a : Byte) (s : State),
    (7 < a.toNat → exec (mk a) s = .next (faultState s (.illegalRegister a) ir)) ∧
    (a.toNat ≤ 7 → taken s.flags = false → s.pc.toNat + 2 > 255 →
      exec (mk a) s = .next (faultState s (.oorPc (s.pc.toNat + 2)) ir)) ∧
    (a.toNat ≤ 7 → taken s.flags = false → s.pc.toNat + 2 ≤ 255 →
      ∃ t, exec (mk a) s = .next t ∧ t.pc.toNat = s.pc.toNat + 2 ∧
        RegsKeptBut s t [] ∧ MemoryKept s t ∧ FlagsKept s t ∧ t.out = s.out ∧ StillGoing s t) ∧
    (∀ ra : Reg, ra.val = a.toNat → taken s.flags = true →
      ∃ t, exec (mk a) s = .next t ∧ t.pc.toNat = (s.reg ra).toNat ∧
        RegsKeptBut s t [] ∧ MemoryKept s t ∧ FlagsKept s t ∧ t.out = s.out ∧ StillGoing s t)

/-- The opcode bytes that write memory: PUSH's and CALL's (R39). -/
abbrev isPushing (ir : Byte) : Prop := ir = 0x45 ∨ ir = 0x50

/-- The opcode bytes that pop: POP's and RET's (R39). -/
abbrev isPopping (ir : Byte) : Prop := ir = 0x46 ∨ ir = 0x11

/-- The byte at pc: the opcode byte the next step fetches (R70). -/
def opcodeAt (s : State) : Byte := Memory.read s.mem s.pc.toNat

end Sys2Proof.Claims

open Sys2Proof Sys2Proof.Machine Sys2Proof.Claims

/-! ### The encoding -/

/-- Decoding the encoding of an enabled instruction, whatever bytes follow, gives the instruction with every operand
byte, and leaves the bytes that follow (R53, R56, R59, R61). -/
def Obligations.DecodeOfEncodeGivesTheInstruction : Prop :=
  ∀ (cfg : Cfg) (i : Instr) (rest : List Byte), i.op.enabled cfg = true →
    decode cfg (encode i ++ rest) = .ok (i, rest)

/-- Whatever decodes was the encoding of what it decodes to, and of an enabled instruction: no bytes have two
readings, and no illegal byte is read as a neighbour (R61, R63). -/
def Obligations.DecodedBytesAreTheEncoding : Prop :=
  ∀ (cfg : Cfg) (bytes rest : List Byte) (i : Instr), decode cfg bytes = .ok (i, rest) →
    bytes = encode i ++ rest ∧ i.op.enabled cfg = true

/-- The lookup finds a row exactly when all eight bits are equal and the row is enabled (R61; the whole-byte match is
the spec's decision D3). -/
def Obligations.LookupMatchesTheWholeByte : Prop :=
  ∀ (cfg : Cfg) (ir : Byte) (o : Op), lookup cfg ir = some o ↔ o.enabled cfg = true ∧ o.opcode = ir

/-- Words written out from R60's table decode to the instructions they stand for, and an extension's byte does not
decode where the extension is off. -/
def Obligations.SpecWordsDecodeAsWritten : Prop :=
  decode Cfg.default [0b10000010, 0b00000000, 0b00001000] = .ok (.ldi 0 8, []) ∧
  decode Cfg.default [0b01000111, 0b00000000] = .ok (.prn 0, []) ∧
  decode Cfg.default [0b00000001] = .ok (.hlt, []) ∧
  decode Cfg.default [0b10100000, 0b00000010, 0b00000101] = .ok (.add 2 5, []) ∧
  decode Cfg.default [0b10100111, 0b00000111, 0b00000001] = .ok (.cmp 7 1, []) ∧
  decode Cfg.default [0b01000101, 0b00000011] = .ok (.push 3, []) ∧
  decode Cfg.default [0b01010000, 0b00000001] = .ok (.call 1, []) ∧
  decode Cfg.default [0b00010001] = .ok (.ret, []) ∧
  decode Cfg.full [0b10100011, 0b00000001, 0b00000100] = .ok (.div 1 4, []) ∧
  decode Cfg.full [0b01010110, 0b00000110] = .ok (.jne 6, []) ∧
  decode Cfg.default [0b01010110, 0b00000110] = .error (.unknownOpcode 0x56)

/-- The width is `IR[7:6] + 1`, read from the byte itself, and for every row of the map it is the row's operand count
plus one (R72). -/
def Obligations.WidthIsReadFromTheOpcodeByte : Prop :=
  (∀ ir : Byte, instrWidth ir = ir.toNat / 64 + 1) ∧
  (∀ o : Op, instrWidth o.opcode = o.format.operandCount + 1)

/-- R63: a byte the enabled map does not hold is illegal, and fetching it as an opcode faults with UNKNOWN_OPCODE;
there are 244 such bytes by default and 241 with both extensions; 0x00 is one of them under every configuration. -/
def Obligations.IllegalOpcodeBytesFault : Prop :=
  (∀ (s : State) (ir : Byte), AtOpcode s ir → (∀ o : Op, o.opcode = ir → o.enabled s.cfg = false) →
    step s = .next (faultState s .unknownOpcode ir)) ∧
  ((List.range 256).filter fun n => (lookup Cfg.default (BitVec.ofNat 8 n)).isNone).length = 244 ∧
  ((List.range 256).filter fun n => (lookup Cfg.full (BitVec.ofNat 8 n)).isNone).length = 241 ∧
  (∀ s : State, AtOpcode s 0x00 → step s = .next (faultState s .unknownOpcode 0x00))

/-! ### The step -/

/-- When the bytes at pc decode to an instruction, the step is that instruction's meaning at the same state; nothing
is added around it. -/
def Obligations.StepRunsTheDecodedInstruction : Prop :=
  ∀ (s : State) (i : Instr) (rest : List Byte), s.status = .running →
    decode s.cfg (fetchBytes s) = .ok (i, rest) → step s = exec i s

/-- The same from memory's side: where an enabled instruction's encoding lies at pc, wholly inside memory, the step
runs that instruction (R42, R53, R70, R73). -/
def Obligations.StepRunsTheInstructionStoredAtPc : Prop :=
  ∀ (s : State) (i : Instr), s.status = .running → i.op.enabled s.cfg = true →
    s.pc.toNat + (encode i).length ≤ 256 →
    (∀ k, k < (encode i).length → some (Memory.read s.mem (s.pc.toNat + k)) = (encode i)[k]?) →
    step s = exec i s

/-- The order of fetch, lookup, operand fetch and dispatch on any opcode byte (R70, R71, R73, R74, R82); which operand
addresses fault is the spec's decision D4. -/
def Obligations.StepFetchesThenLooksUpThenDispatches : Prop :=
  ∀ (s : State) (ir : Byte), AtOpcode s ir →
    (lookup s.cfg ir = none → step s = .next (faultState s .unknownOpcode ir)) ∧
    (∀ o, lookup s.cfg ir = some o → s.pc.toNat + ir.toNat / 64 > 255 →
      step s = .next (faultState s (.oorOperandFetch 256) ir)) ∧
    (∀ o, lookup s.cfg ir = some o → s.pc.toNat + ir.toNat / 64 ≤ 255 →
      step s = exec (o.withOperands (operandAt s 1) (operandAt s 2)) s)

/-- Halted and Faulted states have no step, and a Running state whose pc lies in memory has one (R69, R131). -/
def Obligations.OnlyRunningStatesStep : Prop :=
  (∀ s : State, s.status = .halted → step s = .fault .alreadyHalted) ∧
  (∀ (s : State) (r : FaultRec), s.status = .faulted r → step s = .fault (.alreadyFaulted r)) ∧
  (∀ s : State, s.status = .running → s.pc.toNat ≤ 255 → ∃ t, step s = .next t)

/-- No instruction ends in a stop of the model: every one answers a next state, with whatever operand bytes, in every
state. -/
def Obligations.EveryInstructionAnswersANextState : Prop :=
  ∀ (i : Instr) (s : State), ∃ t, exec i s = .next t

/-- A word of the opcode table placed where the next step fetches is what that step runs. -/
def Obligations.PlacedTableWordRunsNext : Prop :=
  ∀ (s : State) (nbits w : Nat) (i : Instr), s.status = .running → s.pc.toNat ≤ 253 →
    decodeTableWord nbits w = some i →
    step (s.withFetchWord nbits w) = exec i (s.withFetchWord nbits w)

/-! ### The instructions: fetch, faults in their order, effect and frame -/

/-- HLT (R83; the advance of pc is the spec's decision D7): status becomes Halted and pc advances by one, which may
reach 256; nothing else changes, and nothing is fetched after it. -/
def Obligations.HltHaltsAndAdvancesByOne : Prop :=
  Fetches (fun _ => true) 0x01 0 (fun _ _ => .hlt) ∧
  ∀ s : State, ∃ t, exec .hlt s = .next t ∧ t.status = .halted ∧ t.cfg = s.cfg ∧
    (s.pc.toNat ≤ 255 → t.pc.toNat = s.pc.toNat + 1) ∧
    RegsKeptBut s t [] ∧ MemoryKept s t ∧ FlagsKept s t ∧ t.out = s.out ∧
    step t = .fault .alreadyHalted

/-- LDI (R84): the immediate, whatever it is, is stored unchanged in Ra. -/
def Obligations.LdiLoadsTheImmediate : Prop :=
  Fetches (fun _ => true) 0x82 2 (fun a imm => .ldi a imm) ∧
  ∀ (a imm : Byte) (s : State),
    (7 < a.toNat → exec (.ldi a imm) s = .next (faultState s (.illegalRegister a) 0x82)) ∧
    (a.toNat = 7 → exec (.ldi a imm) s = .next (faultState s .spWrite 0x82)) ∧
    (a.toNat < 7 → s.pc.toNat + 3 > 255 →
      exec (.ldi a imm) s = .next (faultState s (.oorPc (s.pc.toNat + 3)) 0x82)) ∧
    (∀ ra : Reg, ra.val = a.toNat → ra ≠ sp → s.pc.toNat + 3 ≤ 255 →
      ∃ t, exec (.ldi a imm) s = .next t ∧ t.reg ra = imm ∧ t.pc.toNat = s.pc.toNat + 3 ∧
        RegsKeptBut s t [ra] ∧ MemoryKept s t ∧ FlagsKept s t ∧ t.out = s.out ∧ StillGoing s t)

/-- PRN (R85): one output event, the register's value, is appended; R7 prints SP. The core emits the value; its text
is the statement about decimal digits. -/
def Obligations.PrnAppendsTheRegister : Prop :=
  Fetches (fun _ => true) 0x47 1 (fun a _ => .prn a) ∧
  ∀ (a : Byte) (s : State),
    (7 < a.toNat → exec (.prn a) s = .next (faultState s (.illegalRegister a) 0x47)) ∧
    (a.toNat ≤ 7 → s.pc.toNat + 2 > 255 →
      exec (.prn a) s = .next (faultState s (.oorPc (s.pc.toNat + 2)) 0x47)) ∧
    (∀ ra : Reg, ra.val = a.toNat → s.pc.toNat + 2 ≤ 255 →
      ∃ t, exec (.prn a) s = .next t ∧ t.out = s.out ++ [s.reg ra] ∧ t.pc.toNat = s.pc.toNat + 2 ∧
        RegsKeptBut s t [] ∧ MemoryKept s t ∧ FlagsKept s t ∧ StillGoing s t)

/-- ADD (R86): the sum modulo 256, with no flag and no trace of a wrap. -/
def Obligations.AddWritesTheSumModulo256 : Prop :=
  Fetches (fun _ => true) 0xA0 2 (fun a b => .add a b) ∧
  TwoRegisterFaults (fun a b => .add a b) 0xA0 (fun _ _ => True) ∧
  TwoRegisterResult (fun a b => .add a b) (fun _ _ => True) (fun x y => (x + y) % 256)

/-- SUB (R87): the difference modulo 256, in 0..255. -/
def Obligations.SubWritesTheDifferenceModulo256 : Prop :=
  Fetches (fun _ => true) 0xA1 2 (fun a b => .sub a b) ∧
  TwoRegisterFaults (fun a b => .sub a b) 0xA1 (fun _ _ => True) ∧
  TwoRegisterResult (fun a b => .sub a b) (fun _ _ => True) (fun x y => (x - y) % 256)

/-- MUL (R88): the low 8 bits of the product. -/
def Obligations.MulWritesTheProductModulo256 : Prop :=
  Fetches (fun _ => true) 0xA2 2 (fun a b => .mul a b) ∧
  TwoRegisterFaults (fun a b => .mul a b) 0xA2 (fun _ _ => True) ∧
  TwoRegisterResult (fun a b => .mul a b) (fun _ _ => True) (fun x y => (x * y) % 256)

/-- CMP (R89): exactly one flag is set, by the unsigned order of the two values; a = 7 is legal. -/
def Obligations.CmpSetsExactlyOneFlag : Prop :=
  Fetches (fun _ => true) 0xA7 2 (fun a b => .cmp a b) ∧
  ∀ (a b : Byte) (s : State),
    (7 < a.toNat → exec (.cmp a b) s = .next (faultState s (.illegalRegister a) 0xA7)) ∧
    (a.toNat ≤ 7 → 7 < b.toNat →
      exec (.cmp a b) s = .next (faultState s (.illegalRegister b) 0xA7)) ∧
    (a.toNat ≤ 7 → b.toNat ≤ 7 → s.pc.toNat + 3 > 255 →
      exec (.cmp a b) s = .next (faultState s (.oorPc (s.pc.toNat + 3)) 0xA7)) ∧
    (∀ ra rb : Reg, ra.val = a.toNat → rb.val = b.toNat → s.pc.toNat + 3 ≤ 255 →
      ∃ t, exec (.cmp a b) s = .next t ∧
        (t.flags.eq = true ↔ (s.reg ra).toNat = (s.reg rb).toNat) ∧
        (t.flags.lt = true ↔ (s.reg ra).toNat < (s.reg rb).toNat) ∧
        (t.flags.gt = true ↔ (s.reg ra).toNat > (s.reg rb).toNat) ∧
        [t.flags.eq, t.flags.lt, t.flags.gt].count true = 1 ∧
        t.pc.toNat = s.pc.toNat + 3 ∧
        RegsKeptBut s t [] ∧ MemoryKept s t ∧ t.out = s.out ∧ StillGoing s t)

/-- DIV (R90; the instruction, its byte and its gate are the spec's decision D20): the floor of the quotient; a zero
divisor faults with DIV_BY_ZERO whatever Ra is, and before the advance is tested. -/
def Obligations.DivWritesTheFloorOfTheQuotient : Prop :=
  Fetches (fun cfg => cfg.extDiv) 0xA3 2 (fun a b => .div a b) ∧
  TwoRegisterFaults (fun a b => .div a b) 0xA3 (fun _ y => y ≠ 0) ∧
  TwoRegisterResult (fun a b => .div a b) (fun _ y => y ≠ 0) (fun x y => x / y) ∧
  (∀ (a b : Byte) (s : State) (ra rb : Reg), ra.val = a.toNat → rb.val = b.toNat → ra ≠ sp →
    s.reg rb = 0 → exec (.div a b) s = .next (faultState s .divByZero 0xA3))

/-- PUSH (R93, R94; the stack bound is the spec's decision D10, the order of reading R7 its D14): the register's value,
read before SP changes, is stored one below SP, and SP becomes that address. -/
def Obligations.PushStoresBelowTheStackPointer : Prop :=
  Fetches (fun _ => true) 0x45 1 (fun a _ => .push a) ∧
  ∀ (a : Byte) (s : State),
    (7 < a.toNat → exec (.push a) s = .next (faultState s (.illegalRegister a) 0x45)) ∧
    (a.toNat ≤ 7 → s.reg sp = 0 →
      exec (.push a) s = .next (faultState s (.oorStackOverflow 0) 0x45)) ∧
    (a.toNat ≤ 7 → s.reg sp ≠ 0 → s.pc.toNat + 2 > 255 →
      exec (.push a) s = .next (faultState s (.oorPc (s.pc.toNat + 2)) 0x45)) ∧
    (∀ ra : Reg, ra.val = a.toNat → s.reg sp ≠ 0 → s.pc.toNat + 2 ≤ 255 →
      ∃ t, exec (.push a) s = .next t ∧
        (pushAddress s).toNat = (s.reg sp).toNat - 1 ∧
        t.memRead (pushAddress s) = s.reg ra ∧ MemoryKeptBut s t (pushAddress s) ∧
        t.reg sp = pushAddress s ∧ RegsKeptBut s t [sp] ∧ t.pc.toNat = s.pc.toNat + 2 ∧
        FlagsKept s t ∧ t.out = s.out ∧ StillGoing s t)

/-- POP (R93, R95; the stack bound is the spec's decision D11, the fault on R7 its D13): the byte at SP goes to Ra, SP
goes up by one, and the cell keeps its value. -/
def Obligations.PopLoadsFromTheStackPointer : Prop :=
  Fetches (fun _ => true) 0x46 1 (fun a _ => .pop a) ∧
  ∀ (a : Byte) (s : State),
    (7 < a.toNat → exec (.pop a) s = .next (faultState s (.illegalRegister a) 0x46)) ∧
    (a.toNat = 7 → exec (.pop a) s = .next (faultState s .spWrite 0x46)) ∧
    (a.toNat < 7 → s.reg sp = 255 →
      exec (.pop a) s = .next (faultState s (.oorStackUnderflow 255) 0x46)) ∧
    (a.toNat < 7 → s.reg sp ≠ 255 → s.pc.toNat + 2 > 255 →
      exec (.pop a) s = .next (faultState s (.oorPc (s.pc.toNat + 2)) 0x46)) ∧
    (∀ ra : Reg, ra.val = a.toNat → ra ≠ sp → s.reg sp ≠ 255 → s.pc.toNat + 2 ≤ 255 →
      ∃ t, exec (.pop a) s = .next t ∧
        t.reg ra = s.memRead (s.reg sp) ∧ (t.reg sp).toNat = (s.reg sp).toNat + 1 ∧
        RegsKeptBut s t [ra, sp] ∧ t.pc.toNat = s.pc.toNat + 2 ∧
        MemoryKept s t ∧ FlagsKept s t ∧ t.out = s.out ∧ StillGoing s t)

/-- CALL (R97; the return-address fault is the spec's decision D9, the stack bound its D10, the order of reading R7 its
D14): pc + 2 is pushed, and pc becomes the register's value, read before SP changes. -/
def Obligations.CallPushesTheReturnAddress : Prop :=
  Fetches (fun _ => true) 0x50 1 (fun a _ => .call a) ∧
  ∀ (a : Byte) (s : State),
    (7 < a.toNat → exec (.call a) s = .next (faultState s (.illegalRegister a) 0x50)) ∧
    (a.toNat ≤ 7 → s.pc.toNat + 2 > 255 →
      exec (.call a) s = .next (faultState s (.oorReturnAddress (s.pc.toNat + 2)) 0x50)) ∧
    (a.toNat ≤ 7 → s.pc.toNat + 2 ≤ 255 → s.reg sp = 0 →
      exec (.call a) s = .next (faultState s (.oorStackOverflow 0) 0x50)) ∧
    (∀ ra : Reg, ra.val = a.toNat → s.pc.toNat + 2 ≤ 255 → s.reg sp ≠ 0 →
      ∃ t, exec (.call a) s = .next t ∧
        (pushAddress s).toNat = (s.reg sp).toNat - 1 ∧
        (t.memRead (pushAddress s)).toNat = s.pc.toNat + 2 ∧ MemoryKeptBut s t (pushAddress s) ∧
        t.reg sp = pushAddress s ∧ RegsKeptBut s t [sp] ∧ t.pc.toNat = (s.reg ra).toNat ∧
        FlagsKept s t ∧ t.out = s.out ∧ StillGoing s t)

/-- RET (R98; the stack bound is the spec's decision D11): the byte at SP becomes pc, SP goes up by one, with no
advance and no check of pc. -/
def Obligations.RetPopsThePc : Prop :=
  Fetches (fun _ => true) 0x11 0 (fun _ _ => .ret) ∧
  ∀ s : State,
    (s.reg sp = 255 → exec .ret s = .next (faultState s (.oorStackUnderflow 255) 0x11)) ∧
    (s.reg sp ≠ 255 →
      ∃ t, exec .ret s = .next t ∧ t.pc.toNat = (s.memRead (s.reg sp)).toNat ∧
        (t.reg sp).toNat = (s.reg sp).toNat + 1 ∧ RegsKeptBut s t [sp] ∧
        MemoryKept s t ∧ FlagsKept s t ∧ t.out = s.out ∧ StillGoing s t)

/-- JMP (R99; its byte is the spec's decision D2): pc becomes the register's value, at every pc, with no advance. -/
def Obligations.JmpSetsThePcFromARegister : Prop :=
  Fetches (fun _ => true) 0x54 1 (fun a _ => .jmp a) ∧
  ∀ (a : Byte) (s : State),
    (7 < a.toNat → exec (.jmp a) s = .next (faultState s (.illegalRegister a) 0x54)) ∧
    (∀ ra : Reg, ra.val = a.toNat →
      ∃ t, exec (.jmp a) s = .next t ∧ t.pc.toNat = (s.reg ra).toNat ∧
        RegsKeptBut s t [] ∧ MemoryKept s t ∧ FlagsKept s t ∧ t.out = s.out ∧ StillGoing s t)

/-- JEQ (R100; the instruction, its byte and its gate are the spec's decision D19): taken when EQ is set. -/
def Obligations.JeqJumpsWhenEqualIsSet : Prop :=
  Fetches (fun cfg => cfg.extCondBranch) 0x55 1 (fun a _ => .jeq a) ∧
  BranchesIf (fun a => .jeq a) 0x55 (fun f => f.eq)

/-- JNE (R101; the instruction, its byte and its gate are the spec's decision D19): taken when EQ is clear. -/
def Obligations.JneJumpsWhenEqualIsClear : Prop :=
  Fetches (fun cfg => cfg.extCondBranch) 0x56 1 (fun a _ => .jne a) ∧
  BranchesIf (fun a => .jne a) 0x56 (fun f => !f.eq)

/-! ### Instructions together -/

/-- PUSH followed by POP on the same register restores that register and the stack pointer, and so every register
(R95). -/
def Obligations.PushThenPopRestoresTheRegisters : Prop :=
  ∀ (a : Byte) (s : State), a.toNat < 7 → s.reg sp ≠ 0 → s.pc.toNat + 4 ≤ 255 →
    ∃ t u, exec (.push a) s = .next t ∧ exec (.pop a) t = .next u ∧
      RegsKeptBut s u [] ∧ u.pc.toNat = s.pc.toNat + 4

/-- CALL followed, after whatever the called routine did, by RET with the same stack pointer and the same byte there
resumes at the CALL's address + 2 and restores the stack pointer (R98). -/
def Obligations.CallThenRetResumesAfterTheCall : Prop :=
  ∀ (a : Byte) (s : State), a.toNat ≤ 7 → s.reg sp ≠ 0 → s.pc.toNat + 2 ≤ 255 →
    ∃ t, exec (.call a) s = .next t ∧
      ∀ r : State, r.reg sp = t.reg sp → r.memRead (t.reg sp) = t.memRead (t.reg sp) →
        ∃ u, exec .ret r = .next u ∧ u.pc.toNat = s.pc.toNat + 2 ∧ u.reg sp = s.reg sp

/-- A byte that PUSH stores where the next instruction is fetched is the opcode byte the next step sees: no cache lies
between (R51; the coherence is the spec's decision D23). -/
def Obligations.PushedByteIsFetchedAsTheNextOpcode : Prop :=
  ∀ (a : Byte) (ra : Reg) (s t : State), ra.val = a.toNat → exec (.push a) s = .next t →
    t.status = .running → t.pc.toNat = (pushAddress s).toNat → lookup s.cfg (s.reg ra) = none →
    step t = .next (faultState t .unknownOpcode (s.reg ra))

/-- The operand faults ILLEGAL_REGISTER and SP_WRITE (codes 2 and 3) are raised exactly where a register operand byte
is above 7 or the destination of LDI, ADD, SUB, MUL, DIV or POP is R7 (R19, R75, R76; the spec's decisions D12 and
D13). -/
def Obligations.OperandFaultsAreExactlyTheIllegalOperands : Prop :=
  ∀ (i : Instr) (s : State), s.status = .running →
    ∃ t, exec i s = .next t ∧
      ((i.registersLegal = true ∧ i.destinationLegal = true) ↔
        ∀ r : FaultRec, t.status = .faulted r → r.kind ≠ 2 ∧ r.kind ≠ 3)

/-! ### The whole machine -/

/-- The reset state meets the invariant. -/
def Obligations.ResetMeetsTheInvariant : Prop := State.reset.Inv

/-- Every step keeps the invariant: memory in its canonical form inside 0..255, pc inside 0..256 and inside 0..255
unless Halted, at most one flag set, a fault record that names the pc (R22, R24, R26, R36, R80). -/
def Obligations.EveryStepKeepsTheInvariant : Prop :=
  ∀ s t : State, s.Inv → step s = .next t → t.Inv

/-- In every state reached from one that meets the invariant, a Running machine has a next state: a run stops only by
ending Halted or Faulted (R28, R125, R131). -/
def Obligations.ReachableRunningMachineNeverGetsStuck : Prop :=
  ∀ s t : State, s.Inv → Reaches s t → t.status = .running → ∃ u, step t = .next u

/-- Every fault is precise: a step that ends Faulted changed nothing but `status`, and the record holds the faulting
instruction's address and opcode byte (R80, R104, R106, R113; precision is the spec's decision D5). -/
def Obligations.EveryFaultIsPrecise : Prop :=
  ∀ (s t : State) (r : FaultRec), step s = .next t → t.status = .faulted r →
    t = { s with status := .faulted r } ∧ r.pc = s.pc ∧ r.ir = opcodeAt s

/-- Running becomes Halted only by executing HLT (R28). -/
def Obligations.OnlyHltHalts : Prop :=
  ∀ s t : State, step s = .next t → t.status = .halted → opcodeAt s = 0x01

/-- Only PUSH, POP, CALL and RET change R7, and they move it by exactly one, down without passing 0x00 and up without
passing 0xFF (R19, R93; the spec's decisions D10, D11 and D13). -/
def Obligations.OnlyStackInstructionsMoveTheStackPointer : Prop :=
  ∀ s t : State, step s = .next t → t.reg sp ≠ s.reg sp →
    (isPushing (opcodeAt s) ∧ (t.reg sp).toNat + 1 = (s.reg sp).toNat) ∨
    (isPopping (opcodeAt s) ∧ (t.reg sp).toNat = (s.reg sp).toNat + 1)

/-- Only CMP changes a flag (R26). -/
def Obligations.OnlyCmpChangesTheFlags : Prop :=
  ∀ s t : State, step s = .next t → t.flags ≠ s.flags → opcodeAt s = 0xA7

/-- The only writers of memory are PUSH and CALL, and they write one byte, one below SP (R39, R93). -/
def Obligations.OnlyPushesWriteMemory : Prop :=
  ∀ (s t : State) (a : Nat), step s = .next t → Memory.read t.mem a ≠ Memory.read s.mem a →
    isPushing (opcodeAt s) ∧ s.reg sp ≠ 0 ∧ a = (pushAddress s).toNat

/-- No step changes the configuration: it is the machine's, not the program's (R9). -/
def Obligations.NoStepChangesTheConfiguration : Prop :=
  ∀ s t : State, step s = .next t → t.cfg = s.cfg

/-- The output log only grows, by at most one value a step and by PRN alone, and nothing reads it: with another log the
same step does the same and appends the same (R29). -/
def Obligations.OutputLogIsWriteOnly : Prop :=
  ∀ s t : State, step s = .next t →
    ∃ new : List Byte, t.out = s.out ++ new ∧ new.length ≤ 1 ∧ (new ≠ [] → opcodeAt s = 0x47) ∧
      ∀ log : List Byte, step { s with out := log } = .next { t with out := log ++ new }

/-- Without EXT_COND_BRANCH no instruction reads the flags: with other flags the same step does the same to all the
rest, and the other flags stay as they are, or are the ones CMP wrote (R26). -/
def Obligations.CoreInstructionsDoNotReadTheFlags : Prop :=
  ∀ (s t : State) (f : Flags), s.cfg.extCondBranch = false → step s = .next t →
    ∃ g : Flags, step { s with flags := f } = .next { t with flags := g } ∧
      (g = f ∨ (opcodeAt s = 0xA7 ∧ g = t.flags))

/-! ### Memory, the load, the run and the notation -/

/-- A read gives the most recent write to its address, and a write leaves every other address alone (R38, R48). -/
def Obligations.ReadGivesTheLastWrite : Prop :=
  ∀ (s : State) (addr v : Byte),
    (s.memWrite addr v).memRead addr = v ∧
    ∀ a : Nat, a ≠ addr.toNat → Memory.read (s.memWrite addr v).mem a = Memory.read s.mem a

/-- Memories in the canonical form that read alike at every address are equal: the form is the model's own (log entry
2). -/
def Obligations.CanonicalMemoriesThatReadAlikeAreEqual : Prop :=
  ∀ m n : Memory, Memory.wf m → Memory.wf n → (∀ a : Nat, Memory.read m a = Memory.read n a) → m = n

/-- R21, R25, R30 and R37: a booted machine has the image at 0 upward and zero above it, every register 0 but
R7 = 0xF4, pc 0, is Running and has printed nothing; where the load fails, execution never starts. -/
def Obligations.BootLeavesTheResetValuesAndTheImage : Prop :=
  ∀ (cfg : Cfg) (img : List Byte),
    (img.length ≤ 256 → ∃ s, boot cfg (some img) = .next s ∧
      (∀ a : Nat, Memory.read s.mem a = img.getD a 0) ∧
      (∀ r : Reg, r ≠ 7 → s.reg r = 0) ∧ s.reg 7 = 0xF4 ∧ s.pc.toNat = 0 ∧
      s.status = .running ∧ s.out = []) ∧
    (img.length > 256 → ∀ s, boot cfg (some img) ≠ .next s)

/-- Every booted machine meets the invariant, with no flag set (R27, the spec's decision D21) and the configuration it
was created with (log entry 3). -/
def Obligations.BootedMachineMeetsTheInvariant : Prop :=
  ∀ (cfg : Cfg) (img : List Byte) (s : State), boot cfg (some img) = .next s →
    s.Inv ∧ s.flags = { eq := false, lt := false, gt := false } ∧ s.cfg = cfg

/-- R41: an image longer than 256 bytes is a load error, a missing program file is another, and no cycle executes. -/
def Obligations.LoadErrorsPreventTheRun : Prop :=
  (∀ (cfg : Cfg) (img : List Byte), img.length > 256 →
    boot cfg (some img) = .fault (.load .imageTooLarge)) ∧
  (∀ cfg : Cfg, boot cfg none = .fault (.load .imageMissing))

/-- R105's codes, the `info` R106 records for each, and the classes of R108, R109 and R110 (the numbers and the record
are the spec's decision D15). -/
def Obligations.FaultCodesInfosAndClassesAreTheTables : Prop :=
  ∀ (operand spValue ir : Byte) (pc : PcWord) (addr next ret : Nat),
    [FaultCause.unknownOpcode, .illegalRegister operand, .spWrite, .divByZero, .oorOperandFetch addr, .oorPc next,
      .oorReturnAddress ret, .oorStackOverflow spValue, .oorStackUnderflow spValue].map
        (fun c => FaultRec.info { cause := c, pc := pc, ir := ir })
        = [none, some operand.toNat, none, none, some addr, some next, some ret, some spValue.toNat,
            some spValue.toNat] ∧
    [FaultCause.unknownOpcode, .illegalRegister operand, .spWrite, .divByZero, .oorOperandFetch addr, .oorPc next,
      .oorReturnAddress ret, .oorStackOverflow spValue, .oorStackUnderflow spValue].map FaultCause.code
        = [1, 2, 3, 4, 5, 6, 7, 8, 9] ∧
    LoadError.imageTooLarge.code = 10 ∧ LoadError.imageMissing.code = 11 ∧
    (∀ c : FaultCause, (c.isDecodeError = true ↔ c.code ∈ [1, 2, 3]) ∧
      (c.isArithmeticError = true ↔ c.code = 4) ∧ (c.isOutOfRange = true ↔ c.code ∈ [5, 6, 7, 8, 9]))

/-- More fuel never changes a verdict, and a verdict is a terminal state (R130, R131). -/
def Obligations.MoreFuelKeepsTheVerdict : Prop :=
  ∀ (fuel more : Nat) (s t : State), runFor fuel s = some t →
    runFor (fuel + more) s = some t ∧ t.terminal = true

/-- A printed value's text is its unsigned decimal digits with no leading zero (R29, R85; the rendering is the spec's
decision D17). -/
def Obligations.PrintedDigitsAreTheDecimalValue : Prop :=
  ∀ v : Byte, readDigits 10 0 (decimalDigits v) = some v.toNat ∧
    (∀ c cs, decimalDigits v = c :: cs → c = '0' → cs = [] ∧ v = 0) ∧ decimalDigits v ≠ []

/-- The assembler syntax of R66 reads back what it writes, for every instruction whose registers are R0 to R7. -/
def Obligations.AssemblerTextReadsBack : Prop :=
  ∀ i : Instr, i.registersLegal = true → readInstr (asmText i) = some i
end

