-- ==== Sys2Proof/Laws/Decode.lean ====
section
/-! SUPPORT. What the lookup and the width field give, row by row and in general. -/

namespace Sys2Proof

/-- No two rows share an opcode byte. -/
theorem opcode_injective {o p : Op} (h : o.opcode = p.opcode) : o = p := by
  revert h; cases o <;> cases p <;> decide

/-- Every row is in the map. -/
theorem mem_opcodeMap (o : Op) : o ∈ opcodeMap := by cases o <;> decide

/-- What a successful lookup says: the row is enabled and all eight bits match. -/
theorem lookup_some {cfg : Cfg} {ir : Byte} {o : Op} (h : lookup cfg ir = some o) :
    o.enabled cfg = true ∧ o.opcode = ir := by
  have := List.find?_some h
  simpa using this

/-- An enabled row's byte is looked up as that row. -/
theorem lookup_opcode {cfg : Cfg} {o : Op} (h : o.enabled cfg = true) :
    lookup cfg o.opcode = some o := by
  cases hl : lookup cfg o.opcode with
  | none =>
    have := List.find?_eq_none.mp hl o (mem_opcodeMap o)
    simp [h] at this
  | some p => exact congrArg some (opcode_injective (lookup_some hl).2)

/-- A row's width field is its format's operand count. -/
theorem operandCount_opcode (o : Op) : operandCount o.opcode = o.format.operandCount := by
  cases o <;> rfl

theorem instrWidth_opcode (o : Op) : instrWidth o.opcode = o.format.operandCount + 1 := by
  cases o <;> rfl

/-- The width field as arithmetic on the whole byte. -/
theorem operandCount_eq (ir : Byte) : operandCount ir = ir.toNat / 64 := by
  have := ir.isLt
  simp only [operandCount, BitVec.extractLsb, BitVec.extractLsb'_toNat, Nat.shiftRight_eq_div_pow]
  omega

/-- How many operand bytes an instruction has. -/
theorem operandBytes_length (i : Instr) : i.operandBytes.length = i.op.format.operandCount := by
  cases i <;> rfl

/-- An encoding is as long as its first byte says (R55, R72). -/
theorem encode_length (i : Instr) : (encode i).length = instrWidth i.op.opcode := by
  rw [instrWidth_opcode, encode, List.length_cons, operandBytes_length]

/-- An instruction is its row with its own operand bytes. -/
theorem withOperands_operandBytes (i : Instr) (rest : List Byte) :
    i.op.withOperands ((i.operandBytes ++ rest).getD 0 0) ((i.operandBytes ++ rest).getD 1 0) = i := by
  cases i <;> rfl

@[simp] theorem withOperands_op (o : Op) (opa opb : Byte) : (o.withOperands opa opb).op = o := by
  cases o <;> rfl

end Sys2Proof
end

