-- ==== Sys2Proof/Laws/State.lean ====
section
/-! SUPPORT. One lemma per field per update of the state, true by rfl, so that no later proof unfolds a record update;
and the register file's read-after-write laws. -/

namespace Sys2Proof.Machine

variable (s : State) (r : Reg) (v addr ir : Byte) (t : PcWord) (f : Flags) (c : FaultCause)

@[simp] theorem setReg_pc : (s.setReg r v).pc = s.pc := rfl
@[simp] theorem setReg_flags : (s.setReg r v).flags = s.flags := rfl
@[simp] theorem setReg_mem : (s.setReg r v).mem = s.mem := rfl
@[simp] theorem setReg_status : (s.setReg r v).status = s.status := rfl
@[simp] theorem setReg_out : (s.setReg r v).out = s.out := rfl
@[simp] theorem setReg_cfg : (s.setReg r v).cfg = s.cfg := rfl
@[simp] theorem setReg_memRead : (s.setReg r v).memRead addr = s.memRead addr := rfl

@[simp] theorem setPc_regs : (s.setPc t).regs = s.regs := rfl
@[simp] theorem setPc_reg : (s.setPc t).reg r = s.reg r := rfl
@[simp] theorem setPc_pc : (s.setPc t).pc = t := rfl
@[simp] theorem setPc_flags : (s.setPc t).flags = s.flags := rfl
@[simp] theorem setPc_mem : (s.setPc t).mem = s.mem := rfl
@[simp] theorem setPc_status : (s.setPc t).status = s.status := rfl
@[simp] theorem setPc_out : (s.setPc t).out = s.out := rfl
@[simp] theorem setPc_cfg : (s.setPc t).cfg = s.cfg := rfl
@[simp] theorem setPc_memRead : (s.setPc t).memRead addr = s.memRead addr := rfl

@[simp] theorem memWrite_regs : (s.memWrite addr v).regs = s.regs := rfl
@[simp] theorem memWrite_reg : (s.memWrite addr v).reg r = s.reg r := rfl
@[simp] theorem memWrite_pc : (s.memWrite addr v).pc = s.pc := rfl
@[simp] theorem memWrite_flags : (s.memWrite addr v).flags = s.flags := rfl
@[simp] theorem memWrite_mem : (s.memWrite addr v).mem = Memory.write s.mem addr.toNat v := rfl
@[simp] theorem memWrite_status : (s.memWrite addr v).status = s.status := rfl
@[simp] theorem memWrite_out : (s.memWrite addr v).out = s.out := rfl
@[simp] theorem memWrite_cfg : (s.memWrite addr v).cfg = s.cfg := rfl

@[simp] theorem setFlags_regs : (s.setFlags f).regs = s.regs := rfl
@[simp] theorem setFlags_reg : (s.setFlags f).reg r = s.reg r := rfl
@[simp] theorem setFlags_pc : (s.setFlags f).pc = s.pc := rfl
@[simp] theorem setFlags_flags : (s.setFlags f).flags = f := rfl
@[simp] theorem setFlags_mem : (s.setFlags f).mem = s.mem := rfl
@[simp] theorem setFlags_status : (s.setFlags f).status = s.status := rfl
@[simp] theorem setFlags_out : (s.setFlags f).out = s.out := rfl
@[simp] theorem setFlags_cfg : (s.setFlags f).cfg = s.cfg := rfl

@[simp] theorem output_regs : (s.output v).regs = s.regs := rfl
@[simp] theorem output_reg : (s.output v).reg r = s.reg r := rfl
@[simp] theorem output_pc : (s.output v).pc = s.pc := rfl
@[simp] theorem output_flags : (s.output v).flags = s.flags := rfl
@[simp] theorem output_mem : (s.output v).mem = s.mem := rfl
@[simp] theorem output_status : (s.output v).status = s.status := rfl
@[simp] theorem output_out : (s.output v).out = s.out ++ [v] := rfl
@[simp] theorem output_cfg : (s.output v).cfg = s.cfg := rfl

@[simp] theorem dropTop_pc : s.dropTop.pc = s.pc := rfl
@[simp] theorem dropTop_flags : s.dropTop.flags = s.flags := rfl
@[simp] theorem dropTop_mem : s.dropTop.mem = s.mem := rfl
@[simp] theorem dropTop_status : s.dropTop.status = s.status := rfl
@[simp] theorem dropTop_out : s.dropTop.out = s.out := rfl
@[simp] theorem dropTop_cfg : s.dropTop.cfg = s.cfg := rfl

@[simp] theorem takeFault_regs : (takeFault ir c s).regs = s.regs := rfl
@[simp] theorem takeFault_reg : (takeFault ir c s).reg r = s.reg r := rfl
@[simp] theorem takeFault_pc : (takeFault ir c s).pc = s.pc := rfl
@[simp] theorem takeFault_flags : (takeFault ir c s).flags = s.flags := rfl
@[simp] theorem takeFault_mem : (takeFault ir c s).mem = s.mem := rfl
@[simp] theorem takeFault_status : (takeFault ir c s).status = .faulted ⟨c, s.pc, ir⟩ := rfl
@[simp] theorem takeFault_out : (takeFault ir c s).out = s.out := rfl
@[simp] theorem takeFault_cfg : (takeFault ir c s).cfg = s.cfg := rfl

@[simp] theorem reg_setReg_same : (s.setReg r v).reg r = v := by
  simp [State.reg, State.setReg]

theorem reg_setReg_other {q : Reg} (h : q ≠ r) : (s.setReg r v).reg q = s.reg q := by
  simp only [State.reg, State.setReg, Fin.getElem_fin]
  exact Vector.getElem_set_ne _ _ fun e => h (Fin.ext e.symm)

@[simp] theorem dropTop_sp : s.dropTop.reg sp = s.reg sp + 1 := by
  simp [State.dropTop]

theorem dropTop_other {q : Reg} (h : q ≠ sp) : s.dropTop.reg q = s.reg q :=
  reg_setReg_other s sp _ h

/-- Two register files that read alike are equal. -/
theorem regs_ext {s t : State} (h : ∀ q : Reg, s.reg q = t.reg q) : s.regs = t.regs := by
  apply Vector.ext
  intro i hi
  exact h ⟨i, hi⟩

end Sys2Proof.Machine
end

