-- ==== Sys2Proof/Laws/Memory.lean ====
section
/-! SUPPORT. Memory's laws: read after write, and that every memory operation keeps the canonical form. -/

namespace Sys2Proof.Machine

/-- Dropping one address's entry leaves every other read alone, and makes that address read as unlisted. -/
theorem read_filter (m : Memory) (a b : Nat) :
    Memory.read (m.filter (fun c => c.1 ≠ a)) b = if b = a then Memory.unlisted else Memory.read m b := by
  induction m with
  | nil => simp [Memory.read]
  | cons c m ih =>
    obtain ⟨k, x⟩ := c
    by_cases hk : k = a
    · subst hk
      by_cases hb : k = b
      · subst hb; simpa using ih
      · simp [Memory.read, hb, Ne.symm hb] at ih ⊢; simpa [hb] using ih
    · by_cases hb : k = b
      · subst hb; simp [Memory.read, hk]
      · simp [Memory.read, hk, hb] at ih ⊢; exact ih

/-- Entering a cell at an address the list does not hold. -/
theorem read_insert (m : Memory) (a b : Nat) (v : Byte) (h : ∀ c ∈ m, c.1 ≠ a) :
    Memory.read (Memory.insert a v m) b = if b = a then v else Memory.read m b := by
  induction m with
  | nil => simp [Memory.insert, Memory.read, eq_comm]
  | cons c m ih =>
    obtain ⟨k, x⟩ := c
    have hk : k ≠ a := h (k, x) (by simp)
    have ih := ih fun c hc => h c (by simp [hc])
    by_cases hlt : a < k
    · simp [Memory.insert, hlt, Memory.read, eq_comm (a := a)]
    · by_cases hb : k = b
      · subst hb; simp [Memory.insert, hlt, Memory.read, hk]
      · simp [Memory.insert, hlt, Memory.read, hb, ih]

/-- What a read gives after a write: the value at the written address, what it gave before at every other. -/
theorem read_write (m : Memory) (a b : Nat) (v : Byte) :
    Memory.read (Memory.write m a v) b = if b = a then v else Memory.read m b := by
  unfold Memory.write
  split
  · next hv => rw [read_filter, hv]
  · rw [read_insert _ _ _ _ (by simp), read_filter]
    split <;> rfl

@[simp] theorem read_write_same (m : Memory) (a : Nat) (v : Byte) :
    Memory.read (Memory.write m a v) a = v := by simp [read_write]

theorem read_write_other (m : Memory) {a b : Nat} (v : Byte) (h : b ≠ a) :
    Memory.read (Memory.write m a v) b = Memory.read m b := by simp [read_write, h]

theorem mem_insert {m : Memory} {a : Nat} {v : Byte} {c : Host.Cell} :
    c ∈ Memory.insert a v m ↔ c = (a, v) ∨ c ∈ m := by
  induction m with
  | nil => simp [Memory.insert]
  | cons d m ih =>
    obtain ⟨k, x⟩ := d
    by_cases h : a < k
    · simp [Memory.insert, h]
    · simp [Memory.insert, h, ih]; tauto

theorem insert_sorted {m : Memory} {a : Nat} {v : Byte} (hm : m.Pairwise (fun c d => c.1 < d.1))
    (h : ∀ c ∈ m, c.1 ≠ a) : (Memory.insert a v m).Pairwise (fun c d => c.1 < d.1) := by
  induction m with
  | nil => simp [Memory.insert]
  | cons d m ih =>
    obtain ⟨k, x⟩ := d
    obtain ⟨hd, hm'⟩ := List.pairwise_cons.mp hm
    have hk : k ≠ a := h (k, x) (by simp)
    by_cases hlt : a < k
    · simp only [Memory.insert, hlt, if_true]
      refine List.pairwise_cons.mpr ⟨fun c hc => ?_, hm⟩
      rcases List.mem_cons.mp hc with rfl | hc
      · exact hlt
      · exact hlt.trans (hd c hc)
    · simp only [Memory.insert, hlt, if_false]
      refine List.pairwise_cons.mpr ⟨fun c hc => ?_, ih hm' fun c hc => h c (by simp [hc])⟩
      rcases mem_insert.mp hc with rfl | hc
      · show k < a; omega
      · exact hd c hc

/-- A write inside the address space keeps the canonical form. -/
theorem write_wf {m : Memory} (hm : Memory.wf m) {a : Nat} (ha : a < 256) (v : Byte) :
    Memory.wf (Memory.write m a v) := by
  obtain ⟨hs, hc⟩ := hm
  have hs' := hs.filter (fun c => decide (c.1 ≠ a))
  unfold Memory.write
  split
  · exact ⟨hs', fun c h => hc c (List.mem_filter.mp h).1⟩
  · next hv =>
    refine ⟨insert_sorted hs' (by simp), fun c h => ?_⟩
    rcases mem_insert.mp h with rfl | h
    · exact ⟨ha, hv⟩
    · exact hc c (List.mem_filter.mp h).1

theorem memWrite_wf {s : State} (h : Memory.wf s.mem) (addr v : Byte) :
    Memory.wf (s.memWrite addr v).mem := write_wf h addr.isLt v

/-- Placing bytes keeps the canonical form. -/
theorem storeBytes_wf (bytes : List Byte) : ∀ {a : Nat} {m : Memory}, Memory.wf m →
    Memory.wf (storeBytes a bytes m) := by
  induction bytes with
  | nil => exact fun h => h
  | cons b bytes ih =>
    intro a m h
    unfold storeBytes
    apply ih
    split
    · next ha => exact write_wf h ha b
    · exact h

/-- What a read gives after bytes are placed: the byte placed there, or what it gave before. -/
theorem read_storeBytes (bytes : List Byte) : ∀ (a : Nat) (m : Memory) (b : Nat),
    Memory.read (storeBytes a bytes m) b =
      if a ≤ b ∧ b < a + bytes.length ∧ b < 256 then bytes.getD (b - a) 0 else Memory.read m b := by
  induction bytes with
  | nil => intro a m b; simp [storeBytes]; omega
  | cons x bytes ih =>
    intro a m b
    rw [storeBytes, ih]
    by_cases hab : b = a
    · subst hab
      by_cases hb : b < 256 <;> simp [hb]
    · by_cases hin : a + 1 ≤ b ∧ b < a + 1 + bytes.length ∧ b < 256
      · have hx : a ≤ b ∧ b < a + (x :: bytes).length ∧ b < 256 := by simp; omega
        rw [if_pos hin, if_pos hx, show b - a = (b - (a + 1)) + 1 by omega]
        rfl
      · have hx : ¬(a ≤ b ∧ b < a + (x :: bytes).length ∧ b < 256) := by simp; omega
        rw [if_neg hin, if_neg hx]
        split
        · exact read_write_other m x hab
        · rfl

/-- Below every entry a canonical memory reads as unlisted. -/
theorem read_below {m : Memory} {a : Nat} (h : ∀ c ∈ m, a < c.1) : Memory.read m a = Memory.unlisted := by
  induction m with
  | nil => rfl
  | cons c m ih =>
    obtain ⟨k, x⟩ := c
    have hk : a < k := h (k, x) (by simp)
    simp [Memory.read, show k ≠ a by omega, ih fun c hc => h c (by simp [hc])]

end Sys2Proof.Machine
end

