-- ==== Sys2Proof/Laws/Operands.lean ====
section
/-! SUPPORT. What each shared operation answers, said once: where it raises and what it gives. Proofs cite these and
do not unfold the operations. -/

namespace Sys2Proof.Machine

variable {a b v ir : Byte} {s t : State} {r q : Reg} {c : FaultCause} {next : PcWord}

theorem regOperand_of_val (h : r.val = a.toNat) : regOperand a = .ok r := by
  have hlt : a.toNat < 8 := h ▸ r.isLt
  simp only [regOperand, hlt, dite_true]
  exact congrArg Except.ok (Fin.ext h.symm)

theorem regOperand_illegal (h : 7 < a.toNat) : regOperand a = .error (.illegalRegister a) := by
  simp [regOperand, show ¬a.toNat < 8 by omega]

/-- A byte of at most 7 is some register's index. -/
theorem exists_reg (h : a.toNat ≤ 7) : ∃ r : Reg, r.val = a.toNat := ⟨⟨a.toNat, by omega⟩, rfl⟩

theorem regOperand_ok_iff : regOperand a = .ok r ↔ r.val = a.toNat := by
  constructor
  · intro h
    unfold regOperand at h
    split at h
    · injection h with h; rw [← h]
    · cases h
  · exact regOperand_of_val

theorem destOperand_other (h : r ≠ sp) : destOperand r = .ok r := by simp [destOperand, h]

theorem destOperand_sp : destOperand sp = .error .spWrite := rfl

theorem destOperand_ok_iff : destOperand r = .ok q ↔ r = q ∧ r ≠ sp := by
  unfold destOperand
  split <;> simp_all

theorem seqPc_ok (h : s.pc.toNat + instrWidth ir ≤ 255) :
    seqPc ir s = .ok (BitVec.ofNat 9 (s.pc.toNat + instrWidth ir)) := by
  simp [seqPc, show ¬s.pc.toNat + instrWidth ir > 255 by omega]

theorem seqPc_past (h : s.pc.toNat + instrWidth ir > 255) :
    seqPc ir s = .error (.oorPc (s.pc.toNat + instrWidth ir)) := by simp [seqPc, h]

theorem seqPc_ok_iff : seqPc ir s = .ok next ↔
    s.pc.toNat + instrWidth ir ≤ 255 ∧ next.toNat = s.pc.toNat + instrWidth ir := by
  unfold seqPc
  split
  · simp; omega
  · next h =>
    have hb : s.pc.toNat + instrWidth ir ≤ 255 := by omega
    constructor
    · intro e
      injection e with e
      refine ⟨hb, ?_⟩
      rw [← e, BitVec.toNat_ofNat]; omega
    · rintro ⟨-, e⟩
      congr 1
      apply BitVec.eq_of_toNat_eq
      rw [BitVec.toNat_ofNat, e]; omega

theorem returnAddress_ok (h : s.pc.toNat + instrWidth ir ≤ 255) :
    returnAddress ir s = .ok (BitVec.ofNat 8 (s.pc.toNat + instrWidth ir)) := by
  simp [returnAddress, show ¬s.pc.toNat + instrWidth ir > 255 by omega]

theorem returnAddress_past (h : s.pc.toNat + instrWidth ir > 255) :
    returnAddress ir s = .error (.oorReturnAddress (s.pc.toNat + instrWidth ir)) := by
  simp [returnAddress, h]

@[simp] theorem pcOfByte_toNat (x : Byte) : (pcOfByte x).toNat = x.toNat := by
  simp [pcOfByte]; omega

theorem pushAddress_toNat (h : s.reg sp ≠ 0) : (pushAddress s).toNat = (s.reg sp).toNat - 1 := by
  have : (s.reg sp).toNat ≠ 0 := fun e => h (BitVec.eq_of_toNat_eq e)
  have := (s.reg sp).isLt
  have h1 : (1 : Byte).toNat = 1 := rfl
  simp only [pushAddress, BitVec.toNat_sub, h1]; omega

theorem pushByte_ok (h : s.reg sp ≠ 0) :
    pushByte v s = .ok ((s.memWrite (pushAddress s) v).setReg sp (pushAddress s)) := if_neg h

theorem pushByte_overflow (h : s.reg sp = 0) : pushByte v s = .error (.oorStackOverflow 0) := by
  rw [pushByte, if_pos h, h]

theorem pushByte_ok_iff : pushByte v s = .ok t ↔
    s.reg sp ≠ 0 ∧ t = (s.memWrite (pushAddress s) v).setReg sp (pushAddress s) := by
  unfold pushByte
  split <;> simp_all [eq_comm]

theorem topOfStack_ok (h : s.reg sp ≠ 255) : topOfStack s = .ok (s.memRead (s.reg sp)) := if_neg h

theorem topOfStack_underflow (h : s.reg sp = 255) :
    topOfStack s = .error (.oorStackUnderflow 255) := by rw [topOfStack, if_pos h, h]

theorem topOfStack_ok_iff : topOfStack s = .ok v ↔
    s.reg sp ≠ 255 ∧ v = s.memRead (s.reg sp) := by
  unfold topOfStack
  split <;> simp_all [eq_comm]

theorem dropTop_sp_toNat (h : s.reg sp ≠ 255) : (s.dropTop.reg sp).toNat = (s.reg sp).toNat + 1 := by
  have : (s.reg sp).toNat ≠ 255 := fun e => h (BitVec.eq_of_toNat_eq e)
  have := (s.reg sp).isLt
  rw [dropTop_sp, BitVec.toNat_add]
  simp; omega

theorem aluAdd_toNat (x y : Byte) : (aluAdd x y).toNat = (x.toNat + y.toNat) % 256 := by
  simp [aluAdd]

theorem aluSub_toInt (x y : Byte) : ((aluSub x y).toNat : Int) = ((x.toNat : Int) - y.toNat) % 256 := by
  simp only [aluSub, BitVec.toNat_ofInt]
  omega

theorem aluMul_toNat (x y : Byte) : (aluMul x y).toNat = (x.toNat * y.toNat) % 256 := by
  simp [aluMul]

theorem aluDiv_zero (x : Byte) : aluDiv x 0 = .error .divByZero := rfl

theorem aluDiv_ok (x : Byte) {y : Byte} (h : y ≠ 0) :
    aluDiv x y = .ok (BitVec.ofNat 8 (x.toNat / y.toNat)) := if_neg h

theorem aluQuotient_toNat (x y : Byte) :
    (BitVec.ofNat 8 (x.toNat / y.toNat)).toNat = x.toNat / y.toNat := by
  rw [BitVec.toNat_ofNat]
  exact Nat.mod_eq_of_lt (lt_of_le_of_lt (Nat.div_le_self _ _) x.isLt)

/-- A rule that gives a post-state commits it. -/
@[simp] theorem commit_ok : commit ir s (.ok t) = .next t := rfl

/-- A rule that raises commits the fault and nothing of its own. -/
@[simp] theorem commit_error : commit ir s (.error c) = .next (takeFault ir c s) := rfl

/-- Everything a commit can answer. -/
theorem commit_next_iff {x : Except FaultCause State} : commit ir s x = .next t ↔
    x = .ok t ∨ ∃ c, x = .error c ∧ t = takeFault ir c s := by
  cases x with
  | ok u => simp [commit]
  | error c => simp [commit, eq_comm]

/-- Everything the shared form of ADD, SUB, MUL and DIV gives where it raises nothing. -/
theorem aluWrite_ok {f : Byte → Byte → Except FaultCause Byte} (h : aluWrite ir f a b s = .ok t) :
    ∃ ra rb : Reg, ∃ v : Byte, ∃ n : PcWord, ra.val = a.toNat ∧ rb.val = b.toNat ∧ ra ≠ sp ∧
      f (s.reg ra) (s.reg rb) = .ok v ∧ seqPc ir s = .ok n ∧ t = (s.setReg ra v).setPc n := by
  unfold aluWrite at h
  cases ha : regOperand a with
  | error c => simp [ha, bind, Except.bind] at h
  | ok ra =>
  cases hb : regOperand b with
  | error c => simp [ha, hb, bind, Except.bind] at h
  | ok rb =>
  cases hd : destOperand ra with
  | error c => simp [ha, hb, hd, bind, Except.bind] at h
  | ok rd =>
  cases hv : f (s.reg ra) (s.reg rb) with
  | error c => simp [ha, hb, hd, hv, bind, Except.bind] at h
  | ok v =>
  cases hn : seqPc ir s with
  | error c => simp [ha, hb, hd, hv, hn, bind, Except.bind] at h
  | ok n =>
  obtain ⟨rfl, hsp⟩ := destOperand_ok_iff.mp hd
  simp [ha, hb, hd, hv, hn, bind, Except.bind, pure, Except.pure] at h
  exact ⟨ra, rb, v, n, regOperand_ok_iff.mp ha, regOperand_ok_iff.mp hb, hsp, hv, rfl, h.symm⟩

end Sys2Proof.Machine
end

