-- ==== Sys2Proof/Laws/Effects.lean ====
section
/-! SUPPORT. One inversion lemma per instruction: whatever next state its meaning answers is the fault it took, or the
one effect its rule gives, with the conditions under which it has it. Whole-machine proofs case on these. -/

namespace Sys2Proof.Machine

variable {a b imm ir : Byte} {s t : State}

/-- A sequenced rule that gives a value gave one at each part. -/
theorem bind_ok {α β : Type} {x : Except FaultCause α} {f : α → Except FaultCause β} {y : β}
    (h : (x >>= f) = .ok y) : ∃ v, x = .ok v ∧ f v = .ok y := by
  cases x with
  | error c => cases h
  | ok v => exact ⟨v, rfl, h⟩

theorem pure_ok {u : State} (h : (pure u : Except FaultCause State) = .ok t) : t = u := by
  injection h with h; exact h.symm

theorem execHlt_next (h : execHlt s = .next t) : t = { s with pc := s.pc + 1, status := .halted } := by
  injection h with h; exact h.symm

theorem execLdi_next (h : execLdi a imm s = .next t) :
    (∃ c, t = takeFault Op.ldi.opcode c s) ∨
    ∃ ra n, ra.val = a.toNat ∧ ra ≠ sp ∧ seqPc Op.ldi.opcode s = .ok n ∧ t = (s.setReg ra imm).setPc n := by
  rcases commit_next_iff.mp h with h | ⟨c, -, h⟩
  · obtain ⟨ra, hra, h⟩ := bind_ok h
    obtain ⟨rd, hrd, h⟩ := bind_ok h
    obtain ⟨n, hn, h⟩ := bind_ok h
    obtain ⟨rfl, hsp⟩ := destOperand_ok_iff.mp hrd
    exact .inr ⟨ra, n, regOperand_ok_iff.mp hra, hsp, hn, pure_ok h⟩
  · exact .inl ⟨c, h⟩

theorem execPrn_next (h : execPrn a s = .next t) :
    (∃ c, t = takeFault Op.prn.opcode c s) ∨
    ∃ ra n, ra.val = a.toNat ∧ seqPc Op.prn.opcode s = .ok n ∧ t = (s.output (s.reg ra)).setPc n := by
  rcases commit_next_iff.mp h with h | ⟨c, -, h⟩
  · obtain ⟨ra, hra, h⟩ := bind_ok h
    obtain ⟨n, hn, h⟩ := bind_ok h
    exact .inr ⟨ra, n, regOperand_ok_iff.mp hra, hn, pure_ok h⟩
  · exact .inl ⟨c, h⟩

/-- ADD, SUB, MUL and DIV alike: the fault, or one register other than R7 written and the advance. -/
theorem aluWrite_next {f : Byte → Byte → Except FaultCause Byte}
    (h : commit ir s (aluWrite ir f a b s) = .next t) :
    (∃ c, t = takeFault ir c s) ∨
    ∃ ra rb v n, ra.val = a.toNat ∧ rb.val = b.toNat ∧ ra ≠ sp ∧ f (s.reg ra) (s.reg rb) = .ok v ∧
      seqPc ir s = .ok n ∧ t = (s.setReg ra v).setPc n := by
  rcases commit_next_iff.mp h with h | ⟨c, -, h⟩
  · exact .inr (aluWrite_ok h)
  · exact .inl ⟨c, h⟩

theorem execCmp_next (h : execCmp a b s = .next t) :
    (∃ c, t = takeFault Op.cmp.opcode c s) ∨
    ∃ ra rb n, ra.val = a.toNat ∧ rb.val = b.toNat ∧ seqPc Op.cmp.opcode s = .ok n ∧
      t = (s.setFlags (compareFlags (s.reg ra) (s.reg rb))).setPc n := by
  rcases commit_next_iff.mp h with h | ⟨c, -, h⟩
  · obtain ⟨ra, hra, h⟩ := bind_ok h
    obtain ⟨rb, hrb, h⟩ := bind_ok h
    obtain ⟨n, hn, h⟩ := bind_ok h
    exact .inr ⟨ra, rb, n, regOperand_ok_iff.mp hra, regOperand_ok_iff.mp hrb, hn, pure_ok h⟩
  · exact .inl ⟨c, h⟩

theorem execPush_next (h : execPush a s = .next t) :
    (∃ c, t = takeFault Op.push.opcode c s) ∨
    ∃ ra n, ra.val = a.toNat ∧ s.reg sp ≠ 0 ∧ seqPc Op.push.opcode s = .ok n ∧
      t = ((s.memWrite (pushAddress s) (s.reg ra)).setReg sp (pushAddress s)).setPc n := by
  rcases commit_next_iff.mp h with h | ⟨c, -, h⟩
  · obtain ⟨ra, hra, h⟩ := bind_ok h
    obtain ⟨u, hu, h⟩ := bind_ok h
    obtain ⟨n, hn, h⟩ := bind_ok h
    obtain ⟨h0, rfl⟩ := pushByte_ok_iff.mp hu
    exact .inr ⟨ra, n, regOperand_ok_iff.mp hra, h0, hn, pure_ok h⟩
  · exact .inl ⟨c, h⟩

theorem execPop_next (h : execPop a s = .next t) :
    (∃ c, t = takeFault Op.pop.opcode c s) ∨
    ∃ ra n, ra.val = a.toNat ∧ ra ≠ sp ∧ s.reg sp ≠ 255 ∧ seqPc Op.pop.opcode s = .ok n ∧
      t = ((s.setReg ra (s.memRead (s.reg sp))).dropTop).setPc n := by
  rcases commit_next_iff.mp h with h | ⟨c, -, h⟩
  · obtain ⟨ra, hra, h⟩ := bind_ok h
    obtain ⟨rd, hrd, h⟩ := bind_ok h
    obtain ⟨v, hv, h⟩ := bind_ok h
    obtain ⟨n, hn, h⟩ := bind_ok h
    obtain ⟨rfl, hsp⟩ := destOperand_ok_iff.mp hrd
    obtain ⟨h0, rfl⟩ := topOfStack_ok_iff.mp hv
    exact .inr ⟨ra, n, regOperand_ok_iff.mp hra, hsp, h0, hn, pure_ok h⟩
  · exact .inl ⟨c, h⟩

theorem execCall_next (h : execCall a s = .next t) :
    (∃ c, t = takeFault Op.call.opcode c s) ∨
    ∃ ra v, ra.val = a.toNat ∧ returnAddress Op.call.opcode s = .ok v ∧ s.reg sp ≠ 0 ∧
      t = ((s.memWrite (pushAddress s) v).setReg sp (pushAddress s)).setPc (pcOfByte (s.reg ra)) := by
  rcases commit_next_iff.mp h with h | ⟨c, -, h⟩
  · obtain ⟨ra, hra, h⟩ := bind_ok h
    obtain ⟨v, hv, h⟩ := bind_ok h
    obtain ⟨u, hu, h⟩ := bind_ok h
    obtain ⟨h0, rfl⟩ := pushByte_ok_iff.mp hu
    exact .inr ⟨ra, v, regOperand_ok_iff.mp hra, hv, h0, pure_ok h⟩
  · exact .inl ⟨c, h⟩

theorem execRet_next (h : execRet s = .next t) :
    (∃ c, t = takeFault Op.ret.opcode c s) ∨
    s.reg sp ≠ 255 ∧ t = s.dropTop.setPc (pcOfByte (s.memRead (s.reg sp))) := by
  rcases commit_next_iff.mp h with h | ⟨c, -, h⟩
  · obtain ⟨v, hv, h⟩ := bind_ok h
    obtain ⟨h0, rfl⟩ := topOfStack_ok_iff.mp hv
    exact .inr ⟨h0, pure_ok h⟩
  · exact .inl ⟨c, h⟩

theorem execJmp_next (h : execJmp a s = .next t) :
    (∃ c, t = takeFault Op.jmp.opcode c s) ∨
    ∃ ra, ra.val = a.toNat ∧ t = s.setPc (pcOfByte (s.reg ra)) := by
  rcases commit_next_iff.mp h with h | ⟨c, -, h⟩
  · obtain ⟨ra, hra, h⟩ := bind_ok h
    exact .inr ⟨ra, regOperand_ok_iff.mp hra, pure_ok h⟩
  · exact .inl ⟨c, h⟩

/-- JEQ and JNE alike: the fault, or pc alone written, with an address of memory. -/
theorem branchIf_next {taken : Bool} (h : commit ir s (branchIf taken ir a s) = .next t) :
    (∃ c, t = takeFault ir c s) ∨
    ∃ ra n, ra.val = a.toNat ∧ t = s.setPc n ∧
      ((taken = true ∧ n = pcOfByte (s.reg ra)) ∨ (taken = false ∧ seqPc ir s = .ok n)) := by
  rcases commit_next_iff.mp h with h | ⟨c, -, h⟩
  · obtain ⟨ra, hra, h⟩ := bind_ok h
    cases taken with
    | true => exact .inr ⟨ra, _, regOperand_ok_iff.mp hra, pure_ok h, .inl ⟨rfl, rfl⟩⟩
    | false =>
      obtain ⟨n, hn, h⟩ := bind_ok h
      exact .inr ⟨ra, n, regOperand_ok_iff.mp hra, pure_ok h, .inr ⟨rfl, hn⟩⟩
  · exact .inl ⟨c, h⟩

end Sys2Proof.Machine
end

