-- ==== Sys2Proof/Laws/PerInstr.lean ====
section
/-! SUPPORT. Statements about every instruction as syntax, one lemma per constructor. -/

namespace Sys2Proof.Laws

/-- The encoding's length is the width its first byte gives (R55, R72). -/
def EncodeWidth.Statement (i : Instr) : Prop := (encode i).length = instrWidth i.op.opcode

theorem EncodeWidth.hlt : EncodeWidth.Statement .hlt := encode_length _
theorem EncodeWidth.ldi (a imm : Byte) : EncodeWidth.Statement (.ldi a imm) := encode_length _
theorem EncodeWidth.prn (a : Byte) : EncodeWidth.Statement (.prn a) := encode_length _
theorem EncodeWidth.add (a b : Byte) : EncodeWidth.Statement (.add a b) := encode_length _
theorem EncodeWidth.sub (a b : Byte) : EncodeWidth.Statement (.sub a b) := encode_length _
theorem EncodeWidth.mul (a b : Byte) : EncodeWidth.Statement (.mul a b) := encode_length _
theorem EncodeWidth.cmp (a b : Byte) : EncodeWidth.Statement (.cmp a b) := encode_length _
theorem EncodeWidth.push (a : Byte) : EncodeWidth.Statement (.push a) := encode_length _
theorem EncodeWidth.pop (a : Byte) : EncodeWidth.Statement (.pop a) := encode_length _
theorem EncodeWidth.call (a : Byte) : EncodeWidth.Statement (.call a) := encode_length _
theorem EncodeWidth.ret : EncodeWidth.Statement .ret := encode_length _
theorem EncodeWidth.jmp (a : Byte) : EncodeWidth.Statement (.jmp a) := encode_length _
theorem EncodeWidth.div (a b : Byte) : EncodeWidth.Statement (.div a b) := encode_length _
theorem EncodeWidth.jeq (a : Byte) : EncodeWidth.Statement (.jeq a) := encode_length _
theorem EncodeWidth.jne (a : Byte) : EncodeWidth.Statement (.jne a) := encode_length _

end Sys2Proof.Laws
end

