-- ==== Sys2Proof/Laws/Step.lean ====
section
/-! SUPPORT. The fetch, and what one step does: a step is a fault of the fetch or the meaning of the row looked up. -/

namespace Sys2Proof.Machine

variable {s t : State}

/-- The `n` bytes from pc, while they lie inside memory. -/
theorem fetchBytes_length (s : State) : (fetchBytes s).length = min 3 (256 - s.pc.toNat) := by
  simp [fetchBytes]

theorem fetchBytes_getElem? (s : State) (k : Nat) : (fetchBytes s)[k]? =
    if k < min 3 (256 - s.pc.toNat) then some (Memory.read s.mem (s.pc.toNat + k)) else none := by
  unfold fetchBytes
  split
  · next h => simp [h]
  · next h => simp; omega

/-- A pc above 255 has no byte to fetch. -/
theorem fetchBytes_outside (h : s.pc.toNat > 255) : fetchBytes s = [] := by
  simp [fetchBytes, show 256 - s.pc.toNat = 0 by omega]

/-- Inside memory the first byte fetched is the opcode byte. -/
theorem fetchBytes_cons (h : s.pc.toNat ≤ 255) : ∃ rest, fetchBytes s = Memory.read s.mem s.pc.toNat :: rest ∧
    rest.length = min 3 (256 - s.pc.toNat) - 1 ∧
    ∀ k, k < rest.length → rest.getD k 0 = Memory.read s.mem (s.pc.toNat + (k + 1)) := by
  have hlen := fetchBytes_length s
  cases hf : fetchBytes s with
  | nil => rw [hf] at hlen; simp at hlen; omega
  | cons x rest =>
    rw [hf] at hlen
    have h0 := fetchBytes_getElem? s 0
    rw [hf] at h0
    have hx : x = Memory.read s.mem s.pc.toNat := by
      simpa [show 0 < 256 - s.pc.toNat by omega] using h0
    refine ⟨rest, by rw [hx], by simp at hlen; omega, fun k hk => ?_⟩
    have hk1 := fetchBytes_getElem? s (k + 1)
    simp only [List.length_cons] at hlen
    rw [hf, if_pos (by omega), List.getElem?_cons_succ] at hk1
    rw [List.getD_eq_getElem?_getD, hk1]; rfl

/-- A row's instruction depends on the operand bytes its width covers, and on no other. -/
theorem withOperands_congr {o : Op} {x y x' y' : Byte} (h1 : 0 < o.format.operandCount → x = x')
    (h2 : 1 < o.format.operandCount → y = y') : o.withOperands x y = o.withOperands x' y' := by
  cases o <;> simp_all [Op.withOperands, Op.format, Format.operandCount]

theorem step_running (h : s.status = .running) : step s =
    match decode s.cfg (fetchBytes s) with
    | .ok (i, _) => exec i s
    | .error e => fetchFault e s := by unfold step; rw [h] <;> rfl

/-- The step on a byte that is no enabled opcode. -/
theorem step_unknown (h : s.status = .running) (hp : s.pc.toNat ≤ 255)
    (hl : lookup s.cfg (Memory.read s.mem s.pc.toNat) = none) :
    step s = .next (takeFault (Memory.read s.mem s.pc.toNat) .unknownOpcode s) := by
  obtain ⟨rest, hf, -, -⟩ := fetchBytes_cons hp
  simp [step_running h, hf, decode, hl, fetchFault]

/-- The step on an opcode whose operand bytes are not all inside memory. -/
theorem step_operandFetch {o : Op} (h : s.status = .running) (hp : s.pc.toNat ≤ 255)
    (hl : lookup s.cfg (Memory.read s.mem s.pc.toNat) = some o)
    (hn : s.pc.toNat + operandCount (Memory.read s.mem s.pc.toNat) > 255) :
    step s = .next (takeFault (Memory.read s.mem s.pc.toNat) (.oorOperandFetch 256) s) := by
  obtain ⟨rest, hf, hr, -⟩ := fetchBytes_cons hp
  have hc : operandCount (Memory.read s.mem s.pc.toNat) ≤ 3 := by
    rw [operandCount_eq]; have := (Memory.read s.mem s.pc.toNat).isLt; omega
  have hc2 : operandCount (Memory.read s.mem s.pc.toNat) ≤ 2 := by
    rw [← (lookup_some hl).2, operandCount_opcode]; cases o <;> decide
  have hshort : rest.length < operandCount (Memory.read s.mem s.pc.toNat) := by omega
  have haddr : s.pc.toNat + (rest.length + 1) = 256 := by omega
  simp [step_running h, hf, decode, hl, hshort, fetchFault, haddr]

/-- The step on an opcode whose operand bytes are inside memory: the meaning of that row with those bytes. -/
theorem step_exec {o : Op} (h : s.status = .running) (hp : s.pc.toNat ≤ 255)
    (hl : lookup s.cfg (Memory.read s.mem s.pc.toNat) = some o)
    (hn : s.pc.toNat + operandCount (Memory.read s.mem s.pc.toNat) ≤ 255) :
    step s = exec (o.withOperands (Memory.read s.mem (s.pc.toNat + 1)) (Memory.read s.mem (s.pc.toNat + 2))) s := by
  obtain ⟨rest, hf, hr, hget⟩ := fetchBytes_cons hp
  have hc : operandCount (Memory.read s.mem s.pc.toNat) = o.format.operandCount := by
    rw [← (lookup_some hl).2, operandCount_opcode]
  have hc2 : o.format.operandCount ≤ 2 := by cases o <;> decide
  have hlong : ¬rest.length < operandCount (Memory.read s.mem s.pc.toNat) := by omega
  have hw : o.withOperands (rest.getD 0 0) (rest.getD 1 0) =
      o.withOperands (Memory.read s.mem (s.pc.toNat + 1)) (Memory.read s.mem (s.pc.toNat + 2)) :=
    withOperands_congr (fun _ => hget 0 (by omega)) (fun _ => hget 1 (by omega))
  simp only [step_running h, hf, decode, hl, hlong, if_false]
  rw [hw]

/-- Everything a step that answers a next state can have done: the state was Running at an address of memory, and the
step was a fault of the fetch or the meaning of the instruction looked up. -/
theorem step_cases (h : step s = .next t) :
    s.status = .running ∧ s.pc.toNat ≤ 255 ∧
    ((∃ c, t = takeFault (Memory.read s.mem s.pc.toNat) c s) ∨
     ∃ i : Instr, i.op.opcode = Memory.read s.mem s.pc.toNat ∧ i.op.enabled s.cfg = true ∧
      exec i s = .next t) := by
  cases hs : s.status with
  | halted => simp [step, hs] at h
  | faulted r => simp [step, hs] at h
  | running =>
    by_cases hp : s.pc.toNat ≤ 255
    · refine ⟨rfl, hp, ?_⟩
      cases hl : lookup s.cfg (Memory.read s.mem s.pc.toNat) with
      | none =>
        rw [step_unknown hs hp hl] at h
        injection h with h
        exact .inl ⟨_, h.symm⟩
      | some o =>
        by_cases hn : s.pc.toNat + operandCount (Memory.read s.mem s.pc.toNat) ≤ 255
        · rw [step_exec hs hp hl hn] at h
          exact .inr ⟨_, by simpa using (lookup_some hl).2, by simpa using (lookup_some hl).1, h⟩
        · rw [step_operandFetch hs hp hl (by omega)] at h
          injection h with h
          exact .inl ⟨_, h.symm⟩
    · rw [step_running hs, fetchBytes_outside (by omega)] at h
      simp [decode, fetchFault] at h

end Sys2Proof.Machine
end

