-- ==== Sys2Proof/Tests/Slice0.lean ====
section
/-! SUPPORT. The model's own tests. Expected results come from the vectors of 95_test_vectors.md (each test names its
row) and from the encodings of R60 written out bit by bit. Then, for every statement with hypotheses, a named witness
that they can be met, clause by clause at the boundary of its range. -/

namespace Sys2Proof.Tests

open Sys2Proof.Machine Sys2Proof.Claims

/-- The next state, where there is one. -/
def after : Host.Outcome State Fault Refusal → Option State
  | .next t => some t
  | .fault _ => none
  | .refused _ => none

/-- The reset state at another pc, with some cells of memory listed. -/
def st (pc : PcWord) (m : Memory) : State := { State.reset with pc := pc, mem := m }

/-- The same with both extensions on. -/
def stx (pc : PcWord) (m : Memory) : State := { st pc m with cfg := Cfg.full }

/-- The record of a fault. -/
def faulted (c : FaultCause) (pc : PcWord) (ir : Byte) : Status := .faulted { cause := c, pc := pc, ir := ir }

/-! ### Decoding: one word for every constructor, written out from R60 -/

theorem test_decode_hlt : decode Cfg.default [0b00000001] = .ok (.hlt, []) := rfl
theorem test_decode_ldi : decode Cfg.default [0b10000010, 0b00000110, 0b11111111] = .ok (.ldi 6 255, []) := rfl
theorem test_decode_prn : decode Cfg.default [0b01000111, 0b00000111] = .ok (.prn 7, []) := rfl
theorem test_decode_add : decode Cfg.default [0b10100000, 0b00000001, 0b00000010] = .ok (.add 1 2, []) := rfl
theorem test_decode_sub : decode Cfg.default [0b10100001, 0b00000001, 0b00000010] = .ok (.sub 1 2, []) := rfl
theorem test_decode_mul : decode Cfg.default [0b10100010, 0b00000001, 0b00000010] = .ok (.mul 1 2, []) := rfl
theorem test_decode_cmp : decode Cfg.default [0b10100111, 0b00000001, 0b00000010] = .ok (.cmp 1 2, []) := rfl
theorem test_decode_push : decode Cfg.default [0b01000101, 0b00000011] = .ok (.push 3, []) := rfl
theorem test_decode_pop : decode Cfg.default [0b01000110, 0b00000011] = .ok (.pop 3, []) := rfl
theorem test_decode_call : decode Cfg.default [0b01010000, 0b00000011] = .ok (.call 3, []) := rfl
theorem test_decode_ret : decode Cfg.default [0b00010001, 0b00000011] = .ok (.ret, [3]) := rfl
theorem test_decode_jmp : decode Cfg.default [0b01010100, 0b00000011] = .ok (.jmp 3, []) := rfl
theorem test_decode_div : decode Cfg.full [0b10100011, 0b00000001, 0b00000010] = .ok (.div 1 2, []) := rfl
theorem test_decode_jeq : decode Cfg.full [0b01010101, 0b00000011] = .ok (.jeq 3, []) := rfl
theorem test_decode_jne : decode Cfg.full [0b01010110, 0b00000011] = .ok (.jne 3, []) := rfl

/-- X1 to X4 and X6: bytes that are in no enabled row, the low six bits of HLT among them. -/
theorem test_decode_illegal : [0x00, 0xC1, 0x41, 0xFF, 0x56].map (fun ir => decode Cfg.default [ir, 0, 0]) =
    [0x00, 0xC1, 0x41, 0xFF, 0x56].map (fun ir => .error (.unknownOpcode ir)) := rfl

theorem test_decode_missing_operand : decode Cfg.default [0x82, 0x00] = .error (.missingOperand 0x82 2) ∧
    decode Cfg.default [0x82] = .error (.missingOperand 0x82 1) ∧ decode Cfg.default [] = .error .noBytes :=
  ⟨rfl, rfl, rfl⟩

theorem test_encode_ldi : encode (.ldi 0 8) = [0b10000010, 0b00000000, 0b00001000] := rfl

/-- The table's rows as words of 8 bits: every row decodes, operand bytes zero. -/
theorem test_table_words : [0x01, 0x82, 0x47, 0xA0, 0xA1, 0xA2, 0xA7, 0x45, 0x46, 0x50, 0x11, 0x54, 0xA3, 0x55, 0x56].map
      (decodeTableWord 8) =
    [some .hlt, some (.ldi 0 0), some (.prn 0), some (.add 0 0), some (.sub 0 0), some (.mul 0 0), some (.cmp 0 0),
      some (.push 0), some (.pop 0), some (.call 0), some .ret, some (.jmp 0), some (.div 0 0), some (.jeq 0),
      some (.jne 0)] := rfl

/-- Byte 0 of the instruction is the least significant byte of the word. -/
theorem test_table_word_bytes : decodeTableWord 24 0x0500A0 = some (.add 0 5) ∧ decodeTableWord 24 0x0005A0 = some (.add 5 0) :=
  ⟨rfl, rfl⟩

theorem test_placed_word_runs : (after (step (State.reset.withFetchWord 24 0x080082))).map (fun t => (t.reg 0, t.pc)) =
    some (8, 3) := by decide

theorem test_placed_extension_word_runs : (after (step (State.reset.withFetchWord 16 0x0756))).map (fun t => t.pc) =
    some 0xF4 := by decide

/-! ### Well-formedness: an ill-formed term for each check, which the check refuses -/

theorem test_wf_register : (Instr.add 0 8).registersLegal = false ∧ (Instr.add 0 8).wf Cfg.default = false := by decide
theorem test_wf_destination : (Instr.ldi 7 1).destinationLegal = false ∧ (Instr.pop 7).wf Cfg.default = false := by decide
theorem test_wf_extension : (Instr.div 0 1).wf Cfg.default = false ∧ (Instr.div 0 1).wf Cfg.full = true := by decide
theorem test_wf_accepts : (Instr.cmp 7 0).wf Cfg.default = true ∧ (Instr.push 7).wf Cfg.default = true := by decide

/-! ### Instructions: one step each, from 95_test_vectors.md -/

/-- H2: HLT at 255. -/
theorem test_hlt_at_the_top : (after (step (st 255 [(255, 0x01)]))).map (fun t => (t.status, t.pc.toNat)) =
    some (.halted, 256) := by decide

/-- L2. -/
theorem test_ldi : (after (step (st 0 [(0, 0x82), (1, 6), (2, 255)]))).map (fun t => (t.reg 6, t.pc)) =
    some (255, 3) := by decide

/-- L5. -/
theorem test_ldi_at_253 : (after (step (st 253 [(253, 0x82), (255, 5)]))).map (fun t => (t.status, t.reg 0)) =
    some (faulted (.oorPc 256) 253 0x82, 0) := by decide

/-- P-3: PRN R7 prints SP. -/
theorem test_prn_sp : (after (step (st 0 [(0, 0x47), (1, 7)]))).map (fun t => (t.out, t.pc)) = some ([244], 2) := by decide

/-- P-5: no output event where the advance faults. -/
theorem test_prn_at_254 : (after (step (st 254 [(254, 0x47)]))).map (fun t => (t.status, t.out)) =
    some (faulted (.oorPc 256) 254 0x47, []) := by decide

/-- A5: ADD R0,R7. -/
theorem test_add_sp : (after (exec (.add 0 7) ((st 0 []).setReg 0 10))).map (fun t => (t.reg 0, t.reg 7)) =
    some (254, 0xF4) := by decide

/-- A8: operand a is checked first. -/
theorem test_add_two_illegal : (after (exec (.add 9 8) (st 0 []))).map (·.status) =
    some (faulted (.illegalRegister 9) 0 0xA0) := by decide

/-- U2. -/
theorem test_sub_wraps : (after (exec (.sub 0 1) (((st 0 []).setReg 0 3).setReg 1 5))).map (fun t => (t.reg 0, t.reg 1)) =
    some (254, 5) := by decide

/-- U6. -/
theorem test_sub_sp : (after (exec (.sub 7 0) (st 0 []))).map (fun t => (t.status, t.reg 7)) =
    some (faulted .spWrite 0 0xA1, 0xF4) := by decide

/-- M6. -/
theorem test_mul_wraps : (after (exec (.mul 0 1) (((st 0 []).setReg 0 254).setReg 1 5))).map (fun t => t.reg 0) =
    some 246 := by decide

/-- M5. -/
theorem test_mul_square : (after (exec (.mul 0 0) ((st 0 []).setReg 0 3))).map (fun t => t.reg 0) = some 9 := by decide

/-- C4: the comparison is unsigned. -/
theorem test_cmp_unsigned : (after (exec (.cmp 0 1) ((st 0 []).setReg 1 255))).map (fun t => t.flags) =
    some { eq := false, lt := true, gt := false } := by decide

/-- C7: CMP R7,R0 is legal. -/
theorem test_cmp_sp : (after (exec (.cmp 7 0) ((st 0 []).setReg 0 0xF4))).map (fun t => t.flags) =
    some { eq := true, lt := false, gt := false } := by decide

/-- D-1. -/
theorem test_div_floor : (after (exec (.div 0 1) (((st 0 []).setReg 0 7).setReg 1 2))).map (fun t => t.reg 0) =
    some 3 := by decide

/-- D-7: DIV_BY_ZERO before OOR_PC. -/
theorem test_div_zero_at_253 : (after (step (stx 253 [(253, 0xA3), (255, 1)]))).map (·.status) =
    some (faulted .divByZero 253 0xA3) := by decide

/-- S3: PUSH R7 stores the old SP. -/
theorem test_push_sp : (after (step (st 0 [(0, 0x45), (1, 7)]))).map (fun t => (t.memRead 0xF3, t.reg 7)) =
    some (0xF4, 0xF3) := by decide

/-- S5. -/
theorem test_push_overflow : (after (exec (.push 0) ((st 0 []).setReg 7 0))).map (fun t => (t.status, t.mem)) =
    some (faulted (.oorStackOverflow 0) 0 0x45, []) := by decide

/-- S7. -/
theorem test_pop : (after (exec (.pop 1) ((st 0 [(0xF3, 42)]).setReg 7 0xF3))).map
      (fun t => (t.reg 1, t.reg 7, t.memRead 0xF3)) = some (42, 0xF4, 42) := by decide

/-- S11. -/
theorem test_pop_underflow : (after (exec (.pop 0) ((st 0 []).setReg 7 255))).map (·.status) =
    some (faulted (.oorStackUnderflow 255) 0 0x46) := by decide

/-- K2: CALL R7 jumps to the old SP. -/
theorem test_call_sp : (after (step (st 0 [(0, 0x50), (1, 7)]))).map
      (fun t => (t.memRead 0xF3, t.reg 7, t.pc)) = some (2, 0xF3, 0xF4) := by decide

/-- K5: the return address before the overflow. -/
theorem test_call_at_254 : (after (exec (.call 1) ((st 254 []).setReg 7 0))).map (·.status) =
    some (faulted (.oorReturnAddress 256) 254 0x50) := by decide

/-- R-3: RET at 255. -/
theorem test_ret_at_the_top : (after (step ((st 255 [(0xF3, 0x20), (255, 0x11)]).setReg 7 0xF3))).map
      (fun t => (t.pc, t.reg 7)) = some (0x20, 0xF4) := by decide

/-- R-2. -/
theorem test_ret_underflow : (after (exec .ret ((st 0 []).setReg 7 255))).map (·.status) =
    some (faulted (.oorStackUnderflow 255) 0 0x11) := by decide

/-- J2: JMP at 254. -/
theorem test_jmp_at_254 : (after (step (st 254 [(254, 0x54), (255, 2)]))).map (fun t => (t.pc, t.status)) =
    some (0, .running) := by decide

/-- J3. -/
theorem test_jmp_at_255 : (after (step (st 255 [(255, 0x54)]))).map (·.status) =
    some (faulted (.oorOperandFetch 256) 255 0x54) := by decide

/-- B1. -/
theorem test_jeq_taken : (after (exec (.jeq 2)
      (((st 4 []).setReg 2 0x20).setFlags { eq := true, lt := false, gt := false }))).map (fun t => t.pc) = some 0x20 := by
  decide

/-- B7: no JEQ without the extension. -/
theorem test_jeq_off : (after (step (st 0 [(0, 0x55), (1, 2)]))).map (·.status) =
    some (faulted .unknownOpcode 0 0x55) := by decide

/-- B6. -/
theorem test_jne_not_taken : (after (exec (.jne 2)
      (((st 4 []).setReg 2 0x20).setFlags { eq := true, lt := false, gt := false }))).map (fun t => t.pc) = some 6 := by
  decide

/-- B5, with the extension on. -/
theorem test_jne_taken : (after (step ((stx 0 [(0, 0x56), (1, 2)]).setReg 2 0x20))).map (fun t => t.pc) = some 0x20 := by
  decide

/-- X5: UNKNOWN_OPCODE at 255 before any operand fetch. -/
theorem test_unknown_at_255 : (after (step (st 255 [(255, 0xA5)]))).map (·.status) =
    some (faulted .unknownOpcode 255 0xA5) := by decide

/-! ### The notation and the load -/

/-- R66's own example. -/
theorem test_assemble : assemble ['L', 'D', 'I', ' ', 'R', '0', ',', '8', ';', ' ', 'P', 'R', 'N', ' ', 'R', '0', ';', ' ',
      'H', 'L', 'T'] = some [.ldi 0 8, .prn 0, .hlt] := by decide

/-- `SP`, a hexadecimal immediate and a comment. -/
theorem test_assemble_forms : assemble ['C', 'M', 'P', ' ', 'S', 'P', ',', 'R', '1', '#', ';', '\n', 'L', 'D', 'I', ' ', 'R',
      '1', ',', '0', 'x', 'f', '0'] = some [.cmp 7 1, .ldi 1 0xF0] := by decide

/-- P1's image is the encoding of its instructions. -/
theorem test_image : imageOf [.ldi 0 8, .prn 0, .hlt] = [0x82, 0x00, 0x08, 0x47, 0x00, 0x01] := rfl

/-- The canonical form: storing 0 removes the entry. -/
theorem test_write_canonical : Memory.write [(3, 1), (9, 2)] 5 7 = [(3, 1), (5, 7), (9, 2)] ∧
    Memory.write [(3, 1), (9, 2)] 3 0 = [(9, 2)] ∧ Memory.wf [(3, 1), (5, 7), (9, 2)] ∧
    ¬Memory.wf [(5, 7), (3, 1)] ∧ ¬Memory.wf [(256, 1)] ∧ ¬Memory.wf [(3, 0)] := by decide

/-! ### Witnesses that the statements' hypotheses can be met -/

/-- The three clauses of `Fetches` for a row that is always enabled and has `n` ≥ 1 operand bytes, at the two pcs
where they meet. -/
abbrev FetchWitness (ir : Byte) (n : Nat) (above below : PcWord) : Prop :=
  (AtOpcode (st above [(above.toNat, ir)]) ir ∧ above.toNat + n > 255) ∧
  (AtOpcode (st below [(below.toNat, ir)]) ir ∧ below.toNat + n ≤ 255) ∧ above.toNat = below.toNat + 1

/-- The operand clauses of a two-register form, at 8, 7 and 6, and at the pcs where the advance just fits and just
does not. -/
abbrev OperandWitness : Prop :=
  7 < (8 : Byte).toNat ∧ ((7 : Byte).toNat ≤ 7 ∧ 7 < (8 : Byte).toNat) ∧
  ((7 : Byte).toNat = 7 ∧ (7 : Byte).toNat ≤ 7) ∧
  ((6 : Reg).val = (6 : Byte).toNat ∧ (7 : Reg).val = (7 : Byte).toNat ∧ (6 : Reg) ≠ sp ∧
    (st 0 []).reg 7 ≠ 0 ∧ (st 253 []).pc.toNat + 3 > 255 ∧ (st 252 []).pc.toNat + 3 ≤ 255)

theorem witness_DecodeOfEncodeGivesTheInstruction : (Instr.ldi 255 255).op.enabled Cfg.default = true ∧
    (Instr.div 0 1).op.enabled Cfg.full = true := by decide

theorem witness_DecodedBytesAreTheEncoding : decode Cfg.default [0x45, 0x03, 0x99] = .ok (.push 3, [0x99]) := rfl

theorem witness_LookupMatchesTheWholeByte : lookup Cfg.default 0x47 = some .prn := rfl

theorem witness_IllegalOpcodeBytesFault :
    (AtOpcode (st 255 [(255, 0x56)]) 0x56 ∧ ∀ o : Op, o.opcode = 0x56 → o.enabled (st 255 []).cfg = false) ∧
    AtOpcode (st 255 []) 0x00 := by
  refine ⟨⟨by decide, fun o => ?_⟩, by decide⟩
  cases o <;> decide

theorem witness_StepRunsTheDecodedInstruction : (st 254 [(254, 0x54), (255, 2)]).status = .running ∧
    decode (st 254 []).cfg (fetchBytes (st 254 [(254, 0x54), (255, 2)])) = .ok (.jmp 2, []) := ⟨rfl, rfl⟩

theorem witness_StepRunsTheInstructionStoredAtPc :
    (st 253 []).status = .running ∧ (Instr.ldi 0 5).op.enabled (st 253 []).cfg = true ∧
    (st 253 []).pc.toNat + (encode (.ldi 0 5)).length ≤ 256 ∧
    ∀ k, k < 3 → some (Memory.read [(253, 0x82), (255, 5)] (253 + k)) = (encode (.ldi 0 5))[k]? := by decide

theorem witness_StepFetchesThenLooksUpThenDispatches :
    (AtOpcode (st 255 []) 0 ∧ lookup (st 255 []).cfg 0 = none) ∧
    (AtOpcode (st 254 [(254, 0x82)]) 0x82 ∧ lookup (st 254 []).cfg 0x82 = some .ldi ∧ 254 + (0x82 : Byte).toNat / 64 > 255) ∧
    (AtOpcode (st 253 [(253, 0x82)]) 0x82 ∧ 253 + (0x82 : Byte).toNat / 64 ≤ 255) := by decide

theorem witness_OnlyRunningStatesStep : ({ State.reset with status := .halted } : State).status = .halted ∧
    ({ State.reset with status := faulted .spWrite 0 0x82 } : State).status = faulted .spWrite 0 0x82 ∧
    ((st 255 []).status = .running ∧ (st 255 []).pc.toNat ≤ 255) := by decide

theorem witness_PlacedTableWordRunsNext : (st 253 []).status = .running ∧ (st 253 []).pc.toNat ≤ 253 ∧
    decodeTableWord 24 0x0201A3 = some (.div 1 2) := ⟨rfl, by decide, rfl⟩

theorem witness_HltHaltsAndAdvancesByOne : AtOpcode (st 255 [(255, 0x01)]) 0x01 ∧ (st 255 []).pc.toNat ≤ 255 := by decide

theorem witness_LdiLoadsTheImmediate : FetchWitness 0x82 2 254 253 ∧ 7 < (8 : Byte).toNat ∧ (7 : Byte).toNat = 7 ∧
    ((6 : Byte).toNat < 7 ∧ (st 253 []).pc.toNat + 3 > 255) ∧
    ((6 : Reg).val = (6 : Byte).toNat ∧ (6 : Reg) ≠ sp ∧ (st 252 []).pc.toNat + 3 ≤ 255) := by decide

theorem witness_PrnAppendsTheRegister : FetchWitness 0x47 1 255 254 ∧ 7 < (8 : Byte).toNat ∧
    ((7 : Byte).toNat ≤ 7 ∧ (st 254 []).pc.toNat + 2 > 255) ∧
    ((7 : Reg).val = (7 : Byte).toNat ∧ (st 253 []).pc.toNat + 2 ≤ 255) := by decide

theorem witness_AddWritesTheSumModulo256 : FetchWitness 0xA0 2 254 253 ∧ OperandWitness := by decide
theorem witness_SubWritesTheDifferenceModulo256 : FetchWitness 0xA1 2 254 253 ∧ OperandWitness := by decide
theorem witness_MulWritesTheProductModulo256 : FetchWitness 0xA2 2 254 253 ∧ OperandWitness := by decide
theorem witness_CmpSetsExactlyOneFlag : FetchWitness 0xA7 2 254 253 ∧ OperandWitness := by decide

/-- The clauses of an extension's `Fetches`, with the extension on, and off. -/
abbrev ExtensionWitness (ir : Byte) (n : Nat) (above below : PcWord) : Prop :=
  (AtOpcode (stx above [(above.toNat, ir)]) ir ∧ above.toNat + n > 255) ∧
  (AtOpcode (stx below [(below.toNat, ir)]) ir ∧ below.toNat + n ≤ 255) ∧ above.toNat = below.toNat + 1 ∧
  AtOpcode (st above [(above.toNat, ir)]) ir ∧ (stx 0 []).cfg = Cfg.full ∧ (st 0 []).cfg = Cfg.default

theorem witness_DivWritesTheFloorOfTheQuotient : ExtensionWitness 0xA3 2 254 253 ∧ OperandWitness ∧
    ((6 : Reg) ≠ sp ∧ (st 0 []).reg 0 = 0) := by decide

theorem witness_PushStoresBelowTheStackPointer : FetchWitness 0x45 1 255 254 ∧ 7 < (8 : Byte).toNat ∧
    ((7 : Byte).toNat ≤ 7 ∧ ((st 0 []).setReg 7 0).reg sp = 0) ∧
    (((st 254 []).setReg 7 1).reg sp ≠ 0 ∧ (st 254 []).pc.toNat + 2 > 255) ∧
    ((7 : Reg).val = (7 : Byte).toNat ∧ ((st 253 []).setReg 7 1).reg sp ≠ 0 ∧ (st 253 []).pc.toNat + 2 ≤ 255) := by decide

theorem witness_PopLoadsFromTheStackPointer : FetchWitness 0x46 1 255 254 ∧ 7 < (8 : Byte).toNat ∧ (7 : Byte).toNat = 7 ∧
    ((6 : Byte).toNat < 7 ∧ ((st 0 []).setReg 7 255).reg sp = 255) ∧
    (((st 254 []).setReg 7 254).reg sp ≠ 255 ∧ (st 254 []).pc.toNat + 2 > 255) ∧
    ((6 : Reg).val = (6 : Byte).toNat ∧ (6 : Reg) ≠ sp ∧ ((st 253 []).setReg 7 254).reg sp ≠ 255 ∧
      (st 253 []).pc.toNat + 2 ≤ 255) := by decide

theorem witness_CallPushesTheReturnAddress : FetchWitness 0x50 1 255 254 ∧ 7 < (8 : Byte).toNat ∧
    ((7 : Byte).toNat ≤ 7 ∧ (st 254 []).pc.toNat + 2 > 255) ∧
    ((st 253 []).pc.toNat + 2 ≤ 255 ∧ ((st 253 []).setReg 7 0).reg sp = 0) ∧
    ((7 : Reg).val = (7 : Byte).toNat ∧ ((st 253 []).setReg 7 1).reg sp ≠ 0) := by decide

theorem witness_RetPopsThePc : AtOpcode (st 255 [(255, 0x11)]) 0x11 ∧ ((st 0 []).setReg 7 255).reg sp = 255 ∧
    ((st 0 []).setReg 7 254).reg sp ≠ 255 := by decide

theorem witness_JmpSetsThePcFromARegister : FetchWitness 0x54 1 255 254 ∧ 7 < (8 : Byte).toNat ∧
    (7 : Reg).val = (7 : Byte).toNat := by decide

/-- The clauses of a conditional branch over the operand, the flag and the pc. -/
abbrev BranchWitness : Prop :=
  7 < (8 : Byte).toNat ∧ ((7 : Byte).toNat ≤ 7 ∧ (st 254 []).pc.toNat + 2 > 255) ∧ (st 253 []).pc.toNat + 2 ≤ 255 ∧
  (7 : Reg).val = (7 : Byte).toNat ∧ (st 0 []).flags.eq = false ∧
  ((st 0 []).setFlags { eq := true, lt := false, gt := false }).flags.eq = true

theorem witness_JeqJumpsWhenEqualIsSet : ExtensionWitness 0x55 1 255 254 ∧ BranchWitness := by decide
theorem witness_JneJumpsWhenEqualIsClear : ExtensionWitness 0x56 1 255 254 ∧ BranchWitness := by decide

theorem witness_PushThenPopRestoresTheRegisters : (6 : Byte).toNat < 7 ∧ (st 251 []).reg sp ≠ 0 ∧
    (st 251 []).pc.toNat + 4 ≤ 255 := by decide

theorem witness_CallThenRetResumesAfterTheCall : (7 : Byte).toNat ≤ 7 ∧ (st 253 []).reg sp ≠ 0 ∧
    (st 253 []).pc.toNat + 2 ≤ 255 ∧
    (after (exec (.call 7) (st 253 []))).map (fun t => (t.reg sp, t.memRead (t.reg sp))) = some (0xF3, 255) ∧
    ((st 0 [(0xF3, 255)]).setReg 7 0xF3).reg sp = 0xF3 ∧
    ((st 0 [(0xF3, 255)]).setReg 7 0xF3).memRead 0xF3 = 255 := by decide

theorem witness_PushedByteIsFetchedAsTheNextOpcode : (0 : Reg).val = (0 : Byte).toNat ∧
    (after (exec (.push 0) (st 0xF1 []))).map (fun t => (t.status, t.pc.toNat)) =
      some (.running, (pushAddress (st 0xF1 [])).toNat) ∧
    lookup (st 0xF1 []).cfg ((st 0xF1 []).reg 0) = none := by decide

theorem witness_OperandFaultsAreExactlyTheIllegalOperands : (st 0 []).status = .running ∧
    ((Instr.add 6 7).registersLegal = true ∧ (Instr.add 6 7).destinationLegal = true) ∧
    (Instr.add 6 8).registersLegal = false ∧ (Instr.add 7 7).destinationLegal = false := by decide

theorem witness_EveryStepKeepsTheInvariant : State.reset.Inv ∧ (after (step State.reset)).isSome = true := by
  refine ⟨⟨by decide, ⟨by decide, fun _ => by decide⟩, ?_, fun r h => by cases h⟩, by decide⟩
  simp [Flags.atMostOne, State.reset]

theorem witness_ReachableRunningMachineNeverGetsStuck :
    Reaches (st 0 [(0, 0x54)]) (st 0 [(0, 0x54)]) ∧ (st 0 [(0, 0x54)]).status = .running ∧ (st 0 [(0, 0x54)]).Inv := by
  refine ⟨.tail (.refl) rfl, rfl, ⟨by decide, ⟨by decide, fun _ => by decide⟩, ?_, fun r h => by cases h⟩⟩
  simp [Flags.atMostOne, st, State.reset]

theorem witness_EveryFaultIsPrecise : (after (step State.reset)).map (·.status) = some (faulted .unknownOpcode 0 0) := by decide

theorem witness_OnlyHltHalts : (after (step (st 0 [(0, 0x01)]))).map (·.status) = some .halted := by decide

theorem witness_OnlyStackInstructionsMoveTheStackPointer :
    (after (step (st 0 [(0, 0x45)]))).map (fun t => t.reg sp) = some 0xF3 ∧ (st 0 []).reg sp = 0xF4 ∧
    (after (step (st 0 [(0, 0x11)]))).map (fun t => t.reg sp) = some 0xF5 := by decide

theorem witness_OnlyCmpChangesTheFlags : (after (step (st 0 [(0, 0xA7)]))).map (fun t => t.flags) ≠
    some (st 0 []).flags := by decide

theorem witness_OnlyPushesWriteMemory : (after (step (st 1 [(1, 0x50)]))).map (fun t => Memory.read t.mem 0xF3) =
    some 3 ∧ Memory.read (st 1 [(1, 0x50)]).mem 0xF3 = 0 := by decide

theorem witness_NoStepChangesTheConfiguration : (after (step (stx 0 [(0, 0x56)]))).map (·.cfg) = some Cfg.full := by decide

theorem witness_OutputLogIsWriteOnly : (after (step (st 0 [(0, 0x47), (1, 7)]))).map (·.out) = some [0xF4] := by decide

theorem witness_CoreInstructionsDoNotReadTheFlags : (st 0 [(0, 0xA7)]).cfg.extCondBranch = false ∧
    (after (step (st 0 [(0, 0xA7)]))).isSome = true := by decide

theorem witness_CanonicalMemoriesThatReadAlikeAreEqual : Memory.wf [(0, 1), (255, 2)] ∧
    ∀ a : Nat, Memory.read [(0, 1), (255, 2)] a = Memory.read [(0, 1), (255, 2)] a := ⟨by decide, fun _ => rfl⟩

theorem witness_BootLeavesTheResetValuesAndTheImage : (List.replicate 256 (1 : Byte)).length ≤ 256 ∧
    (List.replicate 257 (1 : Byte)).length > 256 ∧ ([] : List Byte).length ≤ 256 := by
  simp only [List.length_replicate, List.length_nil]; decide

theorem witness_BootedMachineMeetsTheInvariant : (after (boot Cfg.full (some [0x01]))).map (·.mem) = some [(0, 1)] := by decide

theorem witness_LoadErrorsPreventTheRun : (List.replicate 257 (1 : Byte)).length > 256 := by
  simp only [List.length_replicate]; decide

theorem witness_MoreFuelKeepsTheVerdict : (runFor 1 (st 255 [(255, 0x01)])).map (fun t => t.pc.toNat) = some 256 := by decide

theorem witness_PrintedDigitsAreTheDecimalValue : decimalDigits 0 = ['0'] ∧ decimalDigits 255 = ['2', '5', '5'] := by decide

theorem witness_AssemblerTextReadsBack : (Instr.cmp 7 0).registersLegal = true ∧
    asmText (.cmp 7 0) = ['C', 'M', 'P', ' ', 'R', '7', ',', 'R', '0'] := by decide

end Sys2Proof.Tests
end

/-! The configuration (00_scope.md R9) is a field of the state by the model's choice (log entry 3): no instruction, and
so no step, writes it. -/

namespace Sys2Proof.Machine

/-- Every effect is a fault or a chain of updates of other fields, each of which has its `cfg` law in Laws/State. -/
theorem exec_cfg {i : Instr} {s t : State} (h : exec i s = .next t) : t.cfg = s.cfg := by
  cases i with
  | hlt => rw [execHlt_next h]
  | ldi a imm => rcases execLdi_next h with ⟨c, rfl⟩ | ⟨ra, n, -, -, -, rfl⟩ <;> simp
  | prn a => rcases execPrn_next h with ⟨c, rfl⟩ | ⟨ra, n, -, -, rfl⟩ <;> simp
  | add a b | sub a b | mul a b | div a b =>
    rcases aluWrite_next h with ⟨c, rfl⟩ | ⟨ra, rb, v, n, -, -, -, -, -, rfl⟩ <;> simp
  | cmp a b => rcases execCmp_next h with ⟨c, rfl⟩ | ⟨ra, rb, n, -, -, -, rfl⟩ <;> simp
  | push a => rcases execPush_next h with ⟨c, rfl⟩ | ⟨ra, n, -, -, -, rfl⟩ <;> simp
  | pop a => rcases execPop_next h with ⟨c, rfl⟩ | ⟨ra, n, -, -, -, -, rfl⟩ <;> simp
  | call a => rcases execCall_next h with ⟨c, rfl⟩ | ⟨ra, v, -, -, -, rfl⟩ <;> simp
  | ret => rcases execRet_next h with ⟨c, rfl⟩ | ⟨-, rfl⟩ <;> simp
  | jmp a => rcases execJmp_next h with ⟨c, rfl⟩ | ⟨ra, -, rfl⟩ <;> simp
  | jeq a | jne a => rcases branchIf_next h with ⟨c, rfl⟩ | ⟨ra, n, -, rfl, -⟩ <;> simp

/-- A fault of the fetch keeps the configuration, and so does the instruction the fetch comes to. -/
theorem step_cfg {s t : State} (h : step s = .next t) : t.cfg = s.cfg := by
  obtain ⟨-, -, hfetch | hexec⟩ := step_cases h
  · obtain ⟨c, rfl⟩ := hfetch
    exact takeFault_cfg s _ c
  · obtain ⟨i, -, -, hi⟩ := hexec
    exact exec_cfg hi

/-- Settles O40: a step is a fault of the fetch or an instruction's meaning, and neither writes `cfg` (R9). -/
theorem noStepChangesTheConfiguration : Obligations.NoStepChangesTheConfiguration :=
  fun _ _ => step_cfg

end Sys2Proof.Machine

/-! ### What a step can do to the state, said once, and what every step keeps (10_state.md) -/

namespace Sys2Proof.Machine

open Sys2Proof.Claims

/-- The kinds of next state an instruction with opcode byte `ir` can answer, whatever its operands are. The
inversion lemmas of Laws/Effects are what puts every instruction under one of them. -/
inductive Effect (ir : Byte) (s : State) : State → Prop where
  | fault (c : FaultCause) : Effect ir s (takeFault ir c s)
  | halt (hir : ir = 0x01) : Effect ir s { s with pc := s.pc + 1, status := .halted }
  | write {r : Reg} (v : Byte) {n : PcWord} (hr : r ≠ sp) (hn : n.toNat ≤ 255) :
      Effect ir s ((s.setReg r v).setPc n)
  | print (v : Byte) {n : PcWord} (hir : ir = 0x47) (hn : n.toNat ≤ 255) : Effect ir s ((s.output v).setPc n)
  | compare (x y : Byte) {n : PcWord} (hir : ir = 0xA7) (hn : n.toNat ≤ 255) :
      Effect ir s ((s.setFlags (compareFlags x y)).setPc n)
  | push (v : Byte) {n : PcWord} (hir : isPushing ir) (hsp : s.reg sp ≠ 0) (hn : n.toNat ≤ 255) :
      Effect ir s (((s.memWrite (pushAddress s) v).setReg sp (pushAddress s)).setPc n)
  | pop {r : Reg} (v : Byte) {n : PcWord} (hir : ir = 0x46) (hr : r ≠ sp) (hsp : s.reg sp ≠ 255)
      (hn : n.toNat ≤ 255) : Effect ir s (((s.setReg r v).dropTop).setPc n)
  | ret {n : PcWord} (hir : ir = 0x11) (hsp : s.reg sp ≠ 255) (hn : n.toNat ≤ 255) :
      Effect ir s (s.dropTop.setPc n)
  | jump {n : PcWord} (hn : n.toNat ≤ 255) : Effect ir s (s.setPc n)

/-- The sequential advance stays inside memory (R24, R77). -/
theorem seqPc_inMemory {ir : Byte} {s : State} {n : PcWord} (h : seqPc ir s = .ok n) : n.toNat ≤ 255 := by
  obtain ⟨hle, hn⟩ := seqPc_ok_iff.mp h
  omega

/-- A transfer's target is an address of memory (R78). -/
theorem pcOfByte_inMemory (x : Byte) : (pcOfByte x).toNat ≤ 255 := by
  have := x.isLt
  rw [pcOfByte_toNat]; omega

theorem exec_effect {i : Instr} {s t : State} (h : exec i s = .next t) : Effect i.op.opcode s t := by
  cases i with
  | hlt => rw [execHlt_next h]; exact .halt rfl
  | ldi a imm =>
    obtain ⟨c, rfl⟩ | ⟨ra, n, -, hr, hn, rfl⟩ := execLdi_next h
    · exact .fault c
    · exact .write imm hr (seqPc_inMemory hn)
  | prn a =>
    obtain ⟨c, rfl⟩ | ⟨ra, n, -, hn, rfl⟩ := execPrn_next h
    · exact .fault c
    · exact .print _ rfl (seqPc_inMemory hn)
  | add a b | sub a b | mul a b | div a b =>
    obtain ⟨c, rfl⟩ | ⟨ra, rb, v, n, -, -, hr, -, hn, rfl⟩ := aluWrite_next h
    · exact .fault c
    · exact .write v hr (seqPc_inMemory hn)
  | cmp a b =>
    obtain ⟨c, rfl⟩ | ⟨ra, rb, n, -, -, hn, rfl⟩ := execCmp_next h
    · exact .fault c
    · exact .compare _ _ rfl (seqPc_inMemory hn)
  | push a =>
    obtain ⟨c, rfl⟩ | ⟨ra, n, -, hsp, hn, rfl⟩ := execPush_next h
    · exact .fault c
    · exact .push _ (.inl rfl) hsp (seqPc_inMemory hn)
  | pop a =>
    obtain ⟨c, rfl⟩ | ⟨ra, n, -, hr, hsp, hn, rfl⟩ := execPop_next h
    · exact .fault c
    · exact .pop _ rfl hr hsp (seqPc_inMemory hn)
  | call a =>
    obtain ⟨c, rfl⟩ | ⟨ra, v, -, -, hsp, rfl⟩ := execCall_next h
    · exact .fault c
    · exact .push v (.inr rfl) hsp (pcOfByte_inMemory _)
  | ret =>
    obtain ⟨c, rfl⟩ | ⟨hsp, rfl⟩ := execRet_next h
    · exact .fault c
    · exact .ret rfl hsp (pcOfByte_inMemory _)
  | jmp a =>
    obtain ⟨c, rfl⟩ | ⟨ra, -, rfl⟩ := execJmp_next h
    · exact .fault c
    · exact .jump (pcOfByte_inMemory _)
  | jeq a | jne a =>
    obtain ⟨c, rfl⟩ | ⟨ra, n, -, rfl, ⟨-, rfl⟩ | ⟨-, hn⟩⟩ := branchIf_next h
    · exact .fault c
    · exact .jump (pcOfByte_inMemory _)
    · exact .jump (seqPc_inMemory hn)

/-- Everything a step that answers a next state can have done, by the opcode byte at pc. -/
theorem step_effect {s t : State} (h : step s = .next t) :
    s.status = .running ∧ s.pc.toNat ≤ 255 ∧ Effect (opcodeAt s) s t := by
  obtain ⟨hrun, hpc, ⟨c, rfl⟩ | ⟨i, hir, -, hi⟩⟩ := step_cases h
  · exact ⟨hrun, hpc, .fault c⟩
  · have heff := exec_effect hi
    rw [hir] at heff
    exact ⟨hrun, hpc, heff⟩

section Effects

variable {ir : Byte} {s t : State}

/-- An instruction faults, halts, or goes on in the same status at an address of memory. -/
theorem Effect.ending (h : Effect ir s t) :
    (∃ c, t = takeFault ir c s) ∨
    (ir = 0x01 ∧ t.status = .halted ∧ t.pc = s.pc + 1) ∨
    (t.status = s.status ∧ t.pc.toNat ≤ 255) := by
  cases h with
  | fault c => exact .inl ⟨c, rfl⟩
  | halt hir => exact .inr (.inl ⟨hir, rfl, rfl⟩)
  | write _ _ hn | print _ _ hn | compare _ _ _ hn | push _ _ _ hn | pop _ _ _ _ hn | ret _ _ hn | jump hn =>
    exact .inr (.inr ⟨rfl, hn⟩)

/-- Only CMP's byte writes the flags, and what it writes is a comparison (R26, R89). -/
theorem Effect.flags (h : Effect ir s t) :
    t.flags = s.flags ∨ (ir = 0xA7 ∧ ∃ x y, t.flags = compareFlags x y) := by
  cases h with
  | compare x y hir => exact .inr ⟨hir, x, y, rfl⟩
  | fault | halt | write | print | push | pop | ret | jump => exact .inl rfl

/-- Only PRN's byte appends to the log, one value (R29). -/
theorem Effect.out (h : Effect ir s t) : t.out = s.out ∨ (ir = 0x47 ∧ ∃ v, t.out = s.out ++ [v]) := by
  cases h with
  | print v hir => exact .inr ⟨hir, v, rfl⟩
  | fault | halt | write | compare | push | pop | ret | jump => exact .inl rfl

/-- Only a push writes memory, at the one address below SP (R39, R93). -/
theorem Effect.mem (h : Effect ir s t) : t.mem = s.mem ∨
    (isPushing ir ∧ s.reg sp ≠ 0 ∧ ∃ v, t.mem = Memory.write s.mem (pushAddress s).toNat v) := by
  cases h with
  | push v hir hsp => exact .inr ⟨hir, hsp, v, rfl⟩
  | fault | halt | write | print | compare | pop | ret | jump => exact .inl rfl

/-- Only the stack's bytes move SP: a push down by one from above 0, a pop up by one from below 255 (R19, R93). -/
theorem Effect.stackPointer (h : Effect ir s t) : t.reg sp = s.reg sp ∨
    (isPushing ir ∧ s.reg sp ≠ 0 ∧ t.reg sp = pushAddress s) ∨
    (isPopping ir ∧ s.reg sp ≠ 255 ∧ t.reg sp = s.dropTop.reg sp) := by
  cases h with
  | fault | halt | print | compare | jump => exact .inl rfl
  | write v hr => exact .inl (reg_setReg_other s _ v hr.symm)
  | push v hir hsp => exact .inr (.inl ⟨hir, hsp, by simp⟩)
  | ret hir hsp => exact .inr (.inr ⟨.inr hir, hsp, rfl⟩)
  | pop v hir hr hsp => exact .inr (.inr ⟨.inl hir, hsp, by simp [reg_setReg_other s _ v hr.symm]⟩)

end Effects

/-! ### The invariant -/

/-- A comparison sets at most one flag: the three orders exclude each other (R89). -/
theorem compareFlags_atMostOne (x y : Byte) : (compareFlags x y).atMostOne := by
  simp only [Flags.atMostOne, compareFlags, decide_eq_true_eq]
  omega

theorem Effect.keeps_memory_wf {ir : Byte} {s t : State} (h : Effect ir s t) (hs : Memory.wf s.mem) :
    Memory.wf t.mem := by
  obtain hmem | ⟨-, -, v, hmem⟩ := h.mem
  · rwa [hmem]
  · rw [hmem]; exact write_wf hs (pushAddress s).isLt v

theorem Effect.keeps_flags_atMostOne {ir : Byte} {s t : State} (h : Effect ir s t) (hs : s.flags.atMostOne) :
    t.flags.atMostOne := by
  obtain hflags | ⟨-, x, y, hflags⟩ := h.flags
  · rwa [hflags]
  · rw [hflags]; exact compareFlags_atMostOne x y

/-- Only HLT's advance has no range check, and it leads to 256 at most, in the Halted state (R24, R79). -/
theorem Effect.pcInRange {ir : Byte} {s t : State} (h : Effect ir s t) (hpc : s.pc.toNat ≤ 255) :
    t.pcInRange := by
  obtain ⟨c, rfl⟩ | ⟨-, hhalt, hnext⟩ | ⟨-, hn⟩ := h.ending
  · exact ⟨hpc.trans (by decide), fun _ => hpc⟩
  · refine ⟨?_, fun hne => absurd hhalt hne⟩
    rw [hnext]; bv_omega
  · exact ⟨hn.trans (by decide), fun _ => hn⟩

theorem Effect.recordInPlace {ir : Byte} {s t : State} (h : Effect ir s t) (hrun : s.status = .running) :
    t.recordInPlace := by
  intro r hr
  obtain ⟨c, rfl⟩ | ⟨-, hhalt, -⟩ | ⟨hstatus, -⟩ := h.ending
  · rw [takeFault_status] at hr
    cases hr
    rfl
  · rw [hhalt] at hr; cases hr
  · rw [hstatus, hrun] at hr; cases hr

theorem step_inv {s t : State} (hs : s.Inv) (h : step s = .next t) : t.Inv := by
  obtain ⟨hrun, hpc, heff⟩ := step_effect h
  exact ⟨heff.keeps_memory_wf hs.memory, heff.pcInRange hpc, heff.keeps_flags_atMostOne hs.flags,
    heff.recordInPlace hrun⟩

/-- Settles O33: each part of the invariant is kept by every effect an instruction can have. -/
theorem everyStepKeepsTheInvariant : Obligations.EveryStepKeepsTheInvariant :=
  fun _ _ => step_inv

/-! ### Progress -/

/-- Every instruction's meaning is a commit, and a commit answers a next state whatever its rule gives (R113). -/
theorem commit_answers (ir : Byte) (s : State) (x : Except FaultCause State) : ∃ t, commit ir s x = .next t := by
  cases x with
  | ok t => exact ⟨t, rfl⟩
  | error c => exact ⟨takeFault ir c s, rfl⟩

theorem exec_answers (i : Instr) (s : State) : ∃ t, exec i s = .next t := by
  cases i with
  | hlt => exact ⟨_, rfl⟩
  | ldi | prn | add | sub | mul | cmp | push | pop | call | ret | jmp | div | jeq | jne =>
    exact commit_answers _ s _

/-- A Running state at an address of memory has a next state, whatever byte lies there (R69, R131). -/
theorem step_answers {s : State} (hrun : s.status = .running) (hpc : s.pc.toNat ≤ 255) :
    ∃ t, step s = .next t := by
  cases hl : lookup s.cfg (Memory.read s.mem s.pc.toNat) with
  | none => exact ⟨_, step_unknown hrun hpc hl⟩
  | some o =>
    by_cases hn : s.pc.toNat + operandCount (Memory.read s.mem s.pc.toNat) ≤ 255
    · rw [step_exec hrun hpc hl hn]; exact exec_answers _ s
    · exact ⟨_, step_operandFetch hrun hpc hl (by omega)⟩

theorem reaches_inv {s t : State} (hs : s.Inv) (h : Reaches s t) : t.Inv := by
  induction h with
  | refl => exact hs
  | tail _ hstep ih => exact step_inv ih hstep

/-- Settles O34: the invariant holds along the run, and it puts the pc of a Running state inside memory. -/
theorem reachableRunningMachineNeverGetsStuck : Obligations.ReachableRunningMachineNeverGetsStuck := by
  intro s t hs hreach hrun
  obtain ⟨-, hpc⟩ := (reaches_inv hs hreach).pc
  exact step_answers hrun (hpc (by simp [hrun]))

/-! ### What only one opcode can do -/

/-- Settles O36: of the three ways an instruction can end, only HLT's is Halted (R28). -/
theorem onlyHltHalts : Obligations.OnlyHltHalts := by
  intro s t h hhalt
  obtain ⟨hrun, -, heff⟩ := step_effect h
  obtain ⟨c, rfl⟩ | ⟨hir, -, -⟩ | ⟨hstatus, -⟩ := heff.ending
  · cases hhalt
  · exact hir
  · rw [hstatus, hrun] at hhalt; cases hhalt

/-- Settles O37: the stack bounds keep the one step of SP from wrapping (R19, R93). -/
theorem onlyStackInstructionsMoveTheStackPointer : Obligations.OnlyStackInstructionsMoveTheStackPointer := by
  intro s t h hmoved
  obtain ⟨-, -, heff⟩ := step_effect h
  obtain hkept | ⟨hir, hsp, hdown⟩ | ⟨hir, hsp, hup⟩ := heff.stackPointer
  · exact absurd hkept hmoved
  · have hpos : (s.reg sp).toNat ≠ 0 := fun e => hsp (BitVec.eq_of_toNat_eq e)
    refine .inl ⟨hir, ?_⟩
    rw [hdown, pushAddress_toNat hsp]; omega
  · exact .inr ⟨hir, hup ▸ dropTop_sp_toNat hsp⟩

/-- Settles O38: a step that is not CMP's keeps the flags (R26). -/
theorem onlyCmpChangesTheFlags : Obligations.OnlyCmpChangesTheFlags := by
  intro s t h hchanged
  obtain ⟨-, -, heff⟩ := step_effect h
  obtain hkept | ⟨hir, -⟩ := heff.flags
  · exact absurd hkept hchanged
  · exact hir

/-! ### Fields no instruction reads

The log and, but for the branches, the flags: an instruction run with another log or other flags does the same, and
hands the other log or flags on. Both are one commutation with `relabel`. -/

/-- The same state with its flags changed by `F` and `pre` put before its log. -/
def State.relabel (F : Flags → Flags) (pre : List Byte) (s : State) : State :=
  { s with flags := F s.flags, out := pre ++ s.out }

/-- A change of the next state, where there is one. -/
def mapNext (φ : State → State) : Host.Outcome State Fault Refusal → Host.Outcome State Fault Refusal
  | .next t => .next (φ t)
  | .fault r => .fault r
  | .refused r => .refused r

section Relabel

variable (F : Flags → Flags) (pre : List Byte) (s : State)

@[simp] theorem relabel_reg (r : Reg) : (s.relabel F pre).reg r = s.reg r := rfl
@[simp] theorem relabel_seqPc (ir : Byte) : seqPc ir (s.relabel F pre) = seqPc ir s := rfl
@[simp] theorem relabel_returnAddress (ir : Byte) : returnAddress ir (s.relabel F pre) = returnAddress ir s := rfl
@[simp] theorem relabel_topOfStack : topOfStack (s.relabel F pre) = topOfStack s := rfl

@[simp] theorem relabel_setReg (r : Reg) (v : Byte) :
    (s.setReg r v).relabel F pre = (s.relabel F pre).setReg r v := rfl
@[simp] theorem relabel_setPc (n : PcWord) : (s.setPc n).relabel F pre = (s.relabel F pre).setPc n := rfl
@[simp] theorem relabel_dropTop : s.dropTop.relabel F pre = (s.relabel F pre).dropTop := rfl
@[simp] theorem relabel_output (v : Byte) : (s.output v).relabel F pre = (s.relabel F pre).output v := by
  simp [State.relabel, State.output]

@[simp] theorem relabel_pushByte (v : Byte) :
    pushByte v (s.relabel F pre) = (State.relabel F pre) <$> pushByte v s := by
  by_cases h : s.reg sp = 0
  · rw [pushByte_overflow h, pushByte_overflow (s := s.relabel F pre) h]; rfl
  · rw [pushByte_ok h, pushByte_ok (s := s.relabel F pre) h]; rfl

/-- A commit commutes with the relabelling when its rule does: the fault it would take commutes anyway. -/
theorem commit_relabel {ir : Byte} {x y : Except FaultCause State} (h : y = State.relabel F pre <$> x) :
    commit ir (s.relabel F pre) y = mapNext (State.relabel F pre) (commit ir s x) := by
  subst h
  cases x <;> rfl

@[simp] theorem relabel_setFlags (f : Flags) :
    (s.setFlags f).relabel id pre = (s.relabel id pre).setFlags f := rfl

theorem relabel_branchIf (taken : Bool) (ir a : Byte) :
    branchIf taken ir a (s.relabel F pre) = State.relabel F pre <$> branchIf taken ir a s := by
  cases taken <;> simp [branchIf]

theorem relabel_aluWrite (ir a b : Byte) (f : Byte → Byte → Except FaultCause Byte) :
    aluWrite ir f a b (s.relabel F pre) = State.relabel F pre <$> aluWrite ir f a b s := by
  simp [aluWrite]

/-- An instruction that neither writes nor tests the flags commutes with any relabelling. -/
theorem exec_relabel {i : Instr} (hcmp : i.op ≠ .cmp) (hjeq : i.op ≠ .jeq) (hjne : i.op ≠ .jne) :
    exec i (s.relabel F pre) = mapNext (State.relabel F pre) (exec i s) := by
  cases i with
  | hlt => rfl
  | add | sub | mul | div => exact commit_relabel F pre s (relabel_aluWrite F pre s _ _ _ _)
  | ldi | prn | push | pop | call | ret | jmp => exact commit_relabel F pre s (by simp)
  | cmp => exact absurd rfl hcmp
  | jeq => exact absurd rfl hjeq
  | jne => exact absurd rfl hjne

/-- With the flags left alone, every instruction commutes with a change of the log. -/
theorem exec_relabel_log (i : Instr) :
    exec i (s.relabel id pre) = mapNext (State.relabel id pre) (exec i s) := by
  cases i with
  | cmp => exact commit_relabel id pre s (by simp)
  | jeq | jne => exact commit_relabel id pre s (relabel_branchIf id pre s _ _ _)
  | hlt | ldi | prn | add | sub | mul | push | pop | call | ret | jmp | div =>
    exact exec_relabel id pre s nofun nofun nofun

/-- CMP's rule does not see the flags it overwrites: with others it writes the same, or takes the same fault. -/
theorem execCmp_relabel_flags {a b : Byte} {t : State} (h : execCmp a b s = .next t) :
    execCmp a b (s.relabel F []) = .next t ∨ execCmp a b (s.relabel F []) = .next (t.relabel F []) := by
  obtain hok | ⟨c, herr, rfl⟩ := commit_next_iff.mp h
  · exact .inl (commit_next_iff.mpr (.inl hok))
  · exact .inr (commit_next_iff.mpr (.inr ⟨c, herr, rfl⟩))

/-- The fetch reads neither the flags nor the log: the relabelled state comes to the same fault or to the same
instruction (R51, R69, R70). -/
theorem step_relabel {t : State} (h : step s = .next t) :
    step (s.relabel F pre) = .next (t.relabel F pre) ∨
    ∃ i : Instr, i.op.opcode = opcodeAt s ∧ i.op.enabled s.cfg = true ∧
      exec i s = .next t ∧ step (s.relabel F pre) = exec i (s.relabel F pre) := by
  obtain ⟨hrun, hpc, -⟩ := step_effect h
  cases hl : lookup s.cfg (Memory.read s.mem s.pc.toNat) with
  | none =>
    cases (step_unknown hrun hpc hl).symm.trans h
    exact .inl (step_unknown (s := s.relabel F pre) hrun hpc hl)
  | some o =>
    by_cases hn : s.pc.toNat + operandCount (Memory.read s.mem s.pc.toNat) ≤ 255
    · obtain ⟨hen, hop⟩ := lookup_some hl
      exact .inr ⟨_, by simpa [opcodeAt] using hop, by simpa using hen, (step_exec hrun hpc hl hn).symm.trans h,
        step_exec (s := s.relabel F pre) hrun hpc hl hn⟩
    · have hpast := Nat.lt_of_not_le hn
      cases (step_operandFetch hrun hpc hl hpast).symm.trans h
      exact .inl (step_operandFetch (s := s.relabel F pre) hrun hpc hl hpast)

/-- A step does the same whatever was printed before it. -/
theorem step_relabel_log {t : State} (h : step s = .next t) :
    step (s.relabel id pre) = .next (t.relabel id pre) := by
  obtain hfault | ⟨i, -, -, hexec, hstep⟩ := step_relabel id pre s h
  · exact hfault
  · rw [hstep, exec_relabel_log, hexec]; rfl

end Relabel

/-- The same state with nothing printed. -/
def State.unprinted (s : State) : State := { s with out := [] }

theorem relabel_unprinted (s : State) (log : List Byte) :
    s.unprinted.relabel id log = { s with out := log } := by
  simp [State.unprinted, State.relabel]

/-- What a step does with a log is what it does with none, put after that log. -/
theorem step_from_unprinted {s t : State} (h : step s = .next t) :
    ∃ u, step s.unprinted = .next u ∧ t = u.relabel id s.out := by
  obtain ⟨hrun, hpc, -⟩ := step_effect h
  obtain ⟨u, hu⟩ := step_answers (s := s.unprinted) hrun hpc
  have hs := step_relabel_log s.out _ hu
  rw [relabel_unprinted, h] at hs
  cases hs
  exact ⟨u, hu, rfl⟩

/-- Settles O41: the values appended are the log of the same step from an empty one (R29). -/
theorem outputLogIsWriteOnly : Obligations.OutputLogIsWriteOnly := by
  intro s t h
  obtain ⟨u, hu, rfl⟩ := step_from_unprinted h
  have hlog : ∀ log, step { s with out := log } = .next (u.relabel id log) := fun log =>
    relabel_unprinted s log ▸ step_relabel_log log _ hu
  obtain ⟨-, -, heff⟩ := step_effect hu
  refine ⟨u.out, rfl, ?_, ?_, hlog⟩
  · obtain hout | ⟨-, v, hout⟩ := heff.out <;> simp [hout, State.unprinted]
  · intro hne
    obtain hout | ⟨hir, -⟩ := heff.out
    · exact absurd hout hne
    · exact hir

/-- Settles O42: with the branches off, CMP alone touches the flags, and it only writes them (R26). -/
theorem coreInstructionsDoNotReadTheFlags : Obligations.CoreInstructionsDoNotReadTheFlags := by
  intro s t f hoff h
  obtain hfault | ⟨i, hir, hen, hexec, hstep⟩ := step_relabel (fun _ => f) [] s h
  · exact ⟨f, hfault, .inl rfl⟩
  · cases i with
    | cmp a b =>
      obtain hsame | hother := execCmp_relabel_flags (fun _ => f) s hexec
      · exact ⟨t.flags, hstep.trans hsame, .inr ⟨hir.symm, rfl⟩⟩
      · exact ⟨f, hstep.trans hother, .inl rfl⟩
    | jeq | jne => exact absurd (hoff.symm.trans hen) (by decide)
    | hlt | ldi | prn | add | sub | mul | push | pop | call | ret | jmp | div =>
      have hcomm := hstep.trans (exec_relabel _ [] s nofun nofun nofun)
      rw [hexec] at hcomm
      exact ⟨f, hcomm, .inl rfl⟩

/-! ### The boot -/

/-- The reset state under a configuration, with an image at address 0 upward (R37, R40, R121). -/
def bootState (cfg : Cfg) (img : List Byte) : State :=
  { State.reset with cfg := cfg, mem := storeBytes 0 img [] }

theorem boot_fits {cfg : Cfg} {img : List Byte} (h : img.length ≤ 256) :
    boot cfg (some img) = .next (bootState cfg img) := if_neg (Nat.not_lt.mpr h)

theorem boot_tooLong {cfg : Cfg} {img : List Byte} (h : img.length > 256) :
    boot cfg (some img) = .fault (.load .imageTooLarge) := if_pos h

theorem boot_next {cfg : Cfg} {img : List Byte} {s : State} (h : boot cfg (some img) = .next s) :
    s = bootState cfg img := by
  by_cases hlen : img.length ≤ 256
  · rw [boot_fits hlen] at h; injection h with h; exact h.symm
  · rw [boot_tooLong (Nat.lt_of_not_le hlen)] at h; cases h

/-- Memory after the boot is the image, and 0 above it (R37). -/
theorem bootState_read (cfg : Cfg) {img : List Byte} (h : img.length ≤ 256) (a : Nat) :
    Memory.read (bootState cfg img).mem a = img.getD a 0 := by
  rw [bootState, read_storeBytes]
  split
  · rfl
  · next hout => rw [List.getD_eq_default _ _ (by omega)]; rfl

theorem reset_reg : ∀ r : Reg, r ≠ 7 → State.reset.reg r = 0 := by decide

theorem bootState_inv (cfg : Cfg) (img : List Byte) : (bootState cfg img).Inv where
  memory := storeBytes_wf img (by decide)
  pc := ⟨Nat.zero_le _, fun _ => Nat.zero_le _⟩
  flags := by simp [Flags.atMostOne, bootState, State.reset]
  record := nofun

/-- Settles O45: an image that fits boots into `bootState`, a longer one is a load error (R21, R25, R30, R37). -/
theorem bootLeavesTheResetValuesAndTheImage : Obligations.BootLeavesTheResetValuesAndTheImage := by
  intro cfg img
  refine ⟨fun hfits => ?_, fun hlong s hs => ?_⟩
  · exact ⟨_, boot_fits hfits, bootState_read cfg hfits, reset_reg, rfl, rfl, rfl, rfl⟩
  · rw [boot_tooLong hlong] at hs; cases hs

/-- Settles O46: what boot gives is `bootState` (R27, R122). -/
theorem bootedMachineMeetsTheInvariant : Obligations.BootedMachineMeetsTheInvariant := by
  intro cfg img s hs
  rw [boot_next hs]
  exact ⟨bootState_inv cfg img, rfl, rfl⟩

end Sys2Proof.Machine

/-! ### Memory, its bytes as instructions, and the load (20_memory.md) -/

namespace Sys2Proof.Machine

open Sys2Proof.Claims

/-! ### The canonical form and the memory port -/

/-- What the canonical form says of its lowest cell. -/
theorem wf_cons {k : Nat} {x : Byte} {m : Memory} (h : Memory.wf ((k, x) :: m)) :
    (∀ c ∈ m, k < c.1) ∧ x ≠ Memory.unlisted ∧ Memory.wf m := by
  obtain ⟨hsorted, hcells⟩ := h
  obtain ⟨habove, htail⟩ := List.pairwise_cons.mp hsorted
  obtain ⟨⟨-, hx⟩, hrest⟩ := List.forall_mem_cons.mp hcells
  exact ⟨habove, hx, htail, hrest⟩

@[simp] theorem read_cons_same (k : Nat) (x : Byte) (m : Memory) : Memory.read ((k, x) :: m) k = x := if_pos rfl

theorem read_cons_other {k a : Nat} (x : Byte) (m : Memory) (h : a ≠ k) :
    Memory.read ((k, x) :: m) a = Memory.read m a := if_neg h.symm

/-- A listed cell tells a memory from one whose cells all lie above it. -/
theorem read_ne_of_above {k : Nat} {x : Byte} {m n : Memory} (hx : x ≠ Memory.unlisted) (hn : ∀ c ∈ n, k < c.1) :
    Memory.read ((k, x) :: m) k ≠ Memory.read n k := by
  rwa [read_cons_same, read_below hn]

/-- Settles O44, by induction along both lists: the lower of two different lowest cells would read differently, and
equal lowest cells leave tails that read alike (R36). -/
theorem canonicalMemoriesThatReadAlikeAreEqual : Obligations.CanonicalMemoriesThatReadAlikeAreEqual := by
  intro m
  induction m with
  | nil =>
    intro n _ hn hread
    cases n with
    | nil => rfl
    | cons d n =>
      obtain ⟨-, hy, -⟩ := wf_cons hn
      exact absurd (hread d.1).symm (read_ne_of_above hy (by simp))
  | cons c m ih =>
    intro n hm hn hread
    obtain ⟨k, x⟩ := c
    obtain ⟨hmAbove, hx, hmTail⟩ := wf_cons hm
    cases n with
    | nil => exact absurd (hread k) (read_ne_of_above hx (by simp))
    | cons d n =>
      obtain ⟨l, y⟩ := d
      obtain ⟨hnAbove, hy, hnTail⟩ := wf_cons hn
      obtain hlt | rfl | hgt := lt_trichotomy k l
      · exact absurd (hread k) (read_ne_of_above hx
          (List.forall_mem_cons.mpr ⟨hlt, fun c hc => hlt.trans (hnAbove c hc)⟩))
      · obtain rfl : x = y := by simpa using hread k
        have htails : ∀ a, Memory.read m a = Memory.read n a := fun a => by
          by_cases ha : a = k
          · rw [ha, read_below hmAbove, read_below hnAbove]
          · rw [← read_cons_other x m ha, hread, read_cons_other x n ha]
        rw [ih n hmTail hnTail htails]
      · exact absurd (hread l).symm (read_ne_of_above hy
          (List.forall_mem_cons.mpr ⟨hgt, fun c hc => hgt.trans (hmAbove c hc)⟩))

/-- Settles O43, by memory's law of read after write (R38, R48). -/
theorem readGivesTheLastWrite : Obligations.ReadGivesTheLastWrite :=
  fun s addr v => ⟨read_write_same s.mem addr.toNat v, fun _ => read_write_other s.mem v⟩

/-- Settles O39: an effect on memory is one write, and a write is seen at its own address alone (R39, R93). -/
theorem onlyPushesWriteMemory : Obligations.OnlyPushesWriteMemory := by
  intro s t a h hchanged
  obtain ⟨-, -, heff⟩ := step_effect h
  obtain hkept | ⟨hir, hsp, v, hwrite⟩ := heff.mem
  · exact absurd (congrArg (Memory.read · a) hkept) hchanged
  · refine ⟨hir, hsp, ?_⟩
    by_contra ha
    exact hchanged (by rw [hwrite, read_write_other s.mem v ha])

/-! ### Instructions lie in the same memory (R42, R51) -/

/-- An operand byte of an instruction whose encoding lies at pc. -/
theorem read_operand_of_stored {s : State} {i : Instr}
    (hstored : ∀ k, k < (encode i).length → some (Memory.read s.mem (s.pc.toNat + k)) = (encode i)[k]?)
    {k : Nat} (hk : k < i.op.format.operandCount) :
    Memory.read s.mem (s.pc.toNat + (k + 1)) = i.operandBytes.getD k 0 := by
  have hbyte := hstored (k + 1) (by simpa [encode, operandBytes_length] using hk)
  rw [encode, List.getElem?_cons_succ] at hbyte
  rw [List.getD_eq_getElem?_getD, ← hbyte, Option.getD_some]

/-- Settles O8: the byte at pc looks up the instruction's row, and the bytes after it are its operand bytes, as many
as the row looks at. -/
theorem stepRunsTheInstructionStoredAtPc : Obligations.StepRunsTheInstructionStoredAtPc := by
  intro s i hrun hen hfits hstored
  have hlen : (encode i).length = i.op.format.operandCount + 1 := by simp [encode, operandBytes_length]
  have hop : Memory.read s.mem s.pc.toNat = i.op.opcode := Option.some.inj (hstored 0 (by omega))
  have hpc : s.pc.toNat ≤ 255 := by omega
  have hinside : s.pc.toNat + operandCount (Memory.read s.mem s.pc.toNat) ≤ 255 := by
    rw [hop, operandCount_opcode]; omega
  have hinstr : i.op.withOperands (Memory.read s.mem (s.pc.toNat + 1)) (Memory.read s.mem (s.pc.toNat + 2)) = i :=
    calc _ = i.op.withOperands (i.operandBytes.getD 0 0) (i.operandBytes.getD 1 0) :=
          withOperands_congr (read_operand_of_stored hstored) (read_operand_of_stored hstored)
      _ = i := by simpa using withOperands_operandBytes i []
  rw [step_exec hrun hpc (hop ▸ lookup_opcode hen) hinside, hinstr]

/-- Settles O30: the step after the PUSH reads its opcode byte from the memory the PUSH wrote, under the
configuration the PUSH kept (R51, R127; the coherence is the spec's decision D23). -/
theorem pushedByteIsFetchedAsTheNextOpcode : Obligations.PushedByteIsFetchedAsTheNextOpcode := by
  intro a ra s t hra h hrun hpc hlookup
  obtain ⟨c, rfl⟩ | ⟨rb, n, hrb, -, -, rfl⟩ := execPush_next h
  · cases hrun
  · obtain rfl : ra = rb := Fin.ext (hra.trans hrb.symm)
    set t := ((s.memWrite (pushAddress s) (s.reg ra)).setReg sp (pushAddress s)).setPc n
    have hbyte : Memory.read t.mem t.pc.toNat = s.reg ra := by
      rw [hpc]; exact read_write_same s.mem _ _
    have hinside : t.pc.toNat ≤ 255 := by
      rw [hpc]; exact Nat.le_of_lt_succ (pushAddress s).isLt
    rw [step_unknown hrun hinside (hbyte ▸ hlookup), hbyte]
    rfl

/-! ### A placed word (log entry 4) -/

/-- Every row is accepted under the configuration that admits its opcode byte (R9). -/
theorem enabled_admitting (cfg : Cfg) (o : Op) : o.enabled (Cfg.admitting cfg o.opcode) = true := by
  cases o <;> simp [Op.enabled, Cfg.admitting]

/-- What decodes under some configuration decodes alike under one that admits its opcode byte: the configuration
only gates the lookup (R9, R61). -/
theorem decode_admitting {cfg : Cfg} (cfg' : Cfg) {ir : Byte} {operands rest : List Byte} {i : Instr}
    (h : decode cfg (ir :: operands) = .ok (i, rest)) :
    decode (Cfg.admitting cfg' ir) (ir :: operands) = .ok (i, rest) := by
  cases hl : lookup cfg ir with
  | none => simp [decode, hl] at h
  | some o =>
    obtain ⟨-, rfl⟩ := lookup_some hl
    simpa [decode, hl, lookup_opcode (enabled_admitting cfg' o)] using h

theorem decodeTableWord_some {nbits w : Nat} {i : Instr} (h : decodeTableWord nbits w = some i) :
    ∃ rest, decode Cfg.full (tableBytes nbits w) = .ok (i, rest) := by
  unfold decodeTableWord at h
  split at h
  · next j rest hdec => cases h; exact ⟨rest, hdec⟩
  · cases h

/-- Below 254 the three bytes of a placed word are the three bytes fetched. -/
theorem fetchBytes_placeWord {s : State} (hpc : s.pc.toNat ≤ 253) (nbits w : Nat) :
    fetchBytes (placeWord s nbits w) = tableBytes nbits w := by
  have hthree : min 3 (256 - s.pc.toNat) = 3 := by omega
  have hread : ∀ k < 3, Memory.read (placeWord s nbits w).mem (s.pc.toNat + k) = (tableBytes nbits w).getD k 0 := by
    intro k hk
    have hinside : s.pc.toNat ≤ s.pc.toNat + k ∧ s.pc.toNat + k < s.pc.toNat + (tableBytes nbits w).length ∧
        s.pc.toNat + k < 256 := by simp [tableBytes]; omega
    rw [placeWord, read_storeBytes, if_pos hinside, Nat.add_sub_cancel_left]
  calc fetchBytes (placeWord s nbits w)
      = (List.range 3).map fun k => Memory.read (placeWord s nbits w).mem (s.pc.toNat + k) := by
        rw [← hthree]; rfl
    _ = (List.range 3).map fun k => (tableBytes nbits w).getD k 0 :=
        List.map_congr_left fun k hk => hread k (List.mem_range.mp hk)
    _ = tableBytes nbits w := rfl

/-- Settles O12: the placed bytes are fetched, and they decode under the configuration that comes with them. -/
theorem placedTableWordRunsNext : Obligations.PlacedTableWordRunsNext := by
  intro s nbits w i hrun hpc hword
  obtain ⟨rest, hdec⟩ := decodeTableWord_some hword
  have hfetched : decode (placeWord s nbits w).cfg (fetchBytes (placeWord s nbits w)) = .ok (i, rest) := by
    rw [fetchBytes_placeWord hpc]; exact decode_admitting s.cfg hdec
  rw [State.withFetchWord, step_running (s := placeWord s nbits w) hrun, hfetched]

/-! ### Load errors -/

/-- Settles O47: the image's length is tested before anything is copied, and a missing file is the loader's report,
for which `boot none` stands (R41, log entry 4). -/
theorem loadErrorsPreventTheRun : Obligations.LoadErrorsPreventTheRun :=
  ⟨fun _ _ => boot_tooLong, fun _ => rfl⟩

end Sys2Proof.Machine

/-! ### The encoding: the lookup, the decoder and the encoder (30_encoding.md) -/

namespace Sys2Proof

/-- The decoder at the opcode byte of an enabled row: the lowest missing operand byte, or the row's instruction and
the bytes after its operands (R53, R59, R73). -/
theorem decode_opcode {cfg : Cfg} {o : Op} (h : o.enabled cfg = true) (bytes : List Byte) :
    decode cfg (o.opcode :: bytes) =
      if bytes.length < o.format.operandCount then .error (.missingOperand o.opcode (bytes.length + 1))
      else .ok (o.withOperands (bytes.getD 0 0) (bytes.getD 1 0), bytes.drop o.format.operandCount) := by
  simp [decode, lookup_opcode h, operandCount_opcode]

/-- Whatever decodes begins with an enabled row's opcode byte, and holds that row's operand bytes after it. -/
theorem decode_ok {cfg : Cfg} {bytes rest : List Byte} {i : Instr} (h : decode cfg bytes = .ok (i, rest)) :
    ∃ (o : Op) (operands : List Byte), o.enabled cfg = true ∧ bytes = o.opcode :: operands ∧
      o.format.operandCount ≤ operands.length ∧ i = o.withOperands (operands.getD 0 0) (operands.getD 1 0) ∧
      rest = operands.drop o.format.operandCount := by
  cases bytes with
  | nil => cases h
  | cons ir operands =>
    cases hl : lookup cfg ir with
    | none => simp [decode, hl] at h
    | some o =>
      obtain ⟨hen, rfl⟩ := lookup_some hl
      rw [decode_opcode hen] at h
      split at h
      · cases h
      · next hlong => cases h; exact ⟨o, operands, hen, rfl, Nat.le_of_not_lt hlong, rfl, rfl⟩

/-- The operand bytes of a row's instruction are the bytes it was made of, as many as the row has. -/
theorem operandBytes_withOperands {o : Op} {bytes : List Byte} (h : o.format.operandCount ≤ bytes.length) :
    (o.withOperands (bytes.getD 0 0) (bytes.getD 1 0)).operandBytes = bytes.take o.format.operandCount := by
  cases o with
  | hlt | ret => rfl
  | prn | push | pop | call | jmp | jeq | jne =>
    obtain ⟨a, tail, rfl⟩ := List.exists_cons_of_length_pos h
    rfl
  | ldi | add | sub | mul | cmp | div =>
    match bytes, h with
    | a :: b :: tail, _ => rfl

/-- Settles O1: the encoding holds every operand byte its row looks at, and nothing after them is looked at. -/
theorem decodeOfEncodeGivesTheInstruction : Obligations.DecodeOfEncodeGivesTheInstruction := by
  intro cfg i rest hen
  have hlong : ¬(i.operandBytes ++ rest).length < i.op.format.operandCount := by
    rw [List.length_append, operandBytes_length]; omega
  rw [encode, List.cons_append, decode_opcode hen, if_neg hlong, withOperands_operandBytes, ← operandBytes_length,
    List.drop_left]

/-- Settles O2: the opcode byte is the row's own, and the operand bytes read are those the row has (R61). -/
theorem decodedBytesAreTheEncoding : Obligations.DecodedBytesAreTheEncoding := by
  intro cfg bytes rest i h
  obtain ⟨o, operands, hen, rfl, hlong, rfl, rfl⟩ := decode_ok h
  refine ⟨?_, by rwa [withOperands_op]⟩
  rw [encode, withOperands_op, operandBytes_withOperands hlong, List.cons_append, List.take_append_drop]

/-- Settles O3: no two rows share a byte, so the first row found is the only one (R61; the spec's decision D3). -/
theorem lookupMatchesTheWholeByte : Obligations.LookupMatchesTheWholeByte := by
  intro cfg ir o
  constructor
  · exact lookup_some
  · rintro ⟨hen, rfl⟩; exact lookup_opcode hen

/-- Settles O5: the field's two bits are the byte divided by 64, and each row's are its operand count (R55, R72). -/
theorem widthIsReadFromTheOpcodeByte : Obligations.WidthIsReadFromTheOpcodeByte :=
  ⟨fun ir => congrArg (· + 1) (operandCount_eq ir), instrWidth_opcode⟩

/-- Settles O4: each word is the encoding of its instruction (R60), and JNE's byte has no row by default (R9). -/
theorem specWordsDecodeAsWritten : Obligations.SpecWordsDecodeAsWritten :=
  ⟨rfl, rfl, rfl, rfl, rfl, rfl, rfl, rfl, rfl, rfl, rfl⟩

/-! ### Bytes that are no opcode (R63) -/

/-- A byte is no opcode exactly when no enabled row has it. -/
theorem lookup_none_iff {cfg : Cfg} {ir : Byte} :
    lookup cfg ir = none ↔ ∀ o : Op, o.opcode = ir → o.enabled cfg = false := by
  constructor
  · rintro h o rfl
    by_contra hen
    rw [lookup_opcode (Bool.not_eq_false _ ▸ hen)] at h
    cases h
  · intro h
    cases hl : lookup cfg ir with
    | none => rfl
    | some o =>
      obtain ⟨hen, hop⟩ := lookup_some hl
      exact absurd hen (by simp [h o hop])

/-- No row has the byte 0x00. -/
theorem opcode_ne_zero (o : Op) : o.opcode ≠ 0x00 := by cases o <;> decide

/-- The opcode bytes of the enabled rows, as numbers. -/
def legalOpcodes (cfg : Cfg) : List Nat := (opcodeMap.filter (·.enabled cfg)).map (·.opcode.toNat)

theorem mem_legalOpcodes {cfg : Cfg} {n : Nat} :
    n ∈ legalOpcodes cfg ↔ n < 256 ∧ (lookup cfg (BitVec.ofNat 8 n)).isSome = true := by
  simp only [legalOpcodes, List.mem_map, List.mem_filter, Option.isSome_iff_exists]
  constructor
  · rintro ⟨o, ⟨-, hen⟩, rfl⟩
    exact ⟨o.opcode.isLt, o, by rw [BitVec.ofNat_toNat, BitVec.setWidth_eq, lookup_opcode hen]⟩
  · rintro ⟨hn, o, ho⟩
    obtain ⟨hen, hop⟩ := lookup_some ho
    exact ⟨o, ⟨mem_opcodeMap o, hen⟩, by rw [hop, BitVec.toNat_ofNat, Nat.mod_eq_of_lt hn]⟩

theorem legalOpcodes_nodup (cfg : Cfg) : (legalOpcodes cfg).Nodup := by
  refine List.Nodup.map (fun o p h => opcode_injective (BitVec.eq_of_toNat_eq h)) (List.Nodup.filter _ ?_)
  decide

/-- The 256 bytes are the enabled rows' and the illegal ones. -/
theorem illegalOpcodes_length (cfg : Cfg) :
    ((List.range 256).filter fun n => (lookup cfg (BitVec.ofNat 8 n)).isNone).length =
      256 - (opcodeMap.filter (·.enabled cfg)).length := by
  have hlegal : ((List.range 256).filter fun n => (lookup cfg (BitVec.ofNat 8 n)).isSome).Perm (legalOpcodes cfg) :=
    (List.perm_ext_iff_of_nodup (List.nodup_range.filter _) (legalOpcodes_nodup cfg)).mpr fun n => by
      rw [List.mem_filter, List.mem_range, mem_legalOpcodes]
  have hsplit := (List.range 256).length_eq_length_filter_add fun n => (lookup cfg (BitVec.ofNat 8 n)).isSome
  simp only [Option.not_isSome, hlegal.length_eq, List.length_range, legalOpcodes, List.length_map] at hsplit
  omega

end Sys2Proof

namespace Sys2Proof.Machine

open Sys2Proof.Claims

/-- Settles O6: the step on a byte the lookup does not find, 12 rows by default and 15 with both extensions. -/
theorem illegalOpcodeBytesFault : Obligations.IllegalOpcodeBytesFault := by
  have hfault : ∀ (s : State) (ir : Byte), AtOpcode s ir → (∀ o : Op, o.opcode = ir → o.enabled s.cfg = false) →
      step s = .next (faultState s .unknownOpcode ir) := by
    rintro s ir ⟨hrun, hpc, rfl⟩ hillegal
    exact step_unknown hrun hpc (lookup_none_iff.mpr hillegal)
  exact ⟨hfault, illegalOpcodes_length Cfg.default, illegalOpcodes_length Cfg.full,
    fun s hat => hfault s 0x00 hat fun o ho => absurd ho (opcode_ne_zero o)⟩

end Sys2Proof.Machine

/-! ### The assembler syntax (R66; the spec's decision D30) -/

namespace Sys2Proof.Machine

/-! #### Numerals -/

theorem readDigits_append {base m : Nat} {xs ys : List Char} : ∀ {acc : Nat}, readDigits base acc xs = some m →
    readDigits base acc (xs ++ ys) = readDigits base m ys := by
  induction xs with
  | nil => intro acc h; cases h; rfl
  | cons c cs ih =>
    intro acc h
    rw [readDigits] at h
    rw [List.cons_append, readDigits]
    cases hc : digitValue c with
    | none => simp [hc] at h
    | some d =>
      by_cases hd : d < base
      · simp only [hc, hd, if_true] at h ⊢; exact ih h
      · simp [hc, hd] at h

theorem digitValue_digitChar : ∀ d < 10, digitValue (Nat.digitChar d) = some d := by decide

/-- A decimal digit is read onto the value before it. -/
theorem readDigits_digitChar {acc d : Nat} (h : d < 10) :
    readDigits 10 acc [Nat.digitChar d] = some (acc * 10 + d) := by
  simp [readDigits, digitValue_digitChar d h, h]

/-- Decimal digits read back, by induction on the number: the last digit is read onto those before it. -/
theorem readDigits_toDigits (n : Nat) : readDigits 10 0 (Nat.toDigits 10 n) = some n := by
  induction n using Nat.strong_induction_on with
  | _ n ih =>
    by_cases hn : n < 10
    · rw [Nat.toDigits_of_lt_base hn, readDigits_digitChar hn, Nat.zero_mul, Nat.zero_add]
    · rw [Nat.toDigits_of_base_le (by decide) (Nat.le_of_not_lt hn), readDigits_append (ih (n / 10) (by omega)),
        readDigits_digitChar (Nat.mod_lt n (by decide)), Nat.div_add_mod']

theorem isDigit_of_mem_decimal {n : Nat} {c : Char} (h : c ∈ Nat.toDigits 10 n) : c.isDigit = true :=
  Nat.isDigit_of_mem_toDigits (by decide) (by decide) h

/-- Text without the letters that mark base 16 and base 2 is read as decimal (R66). -/
theorem readImmediate_decimal {cs : List Char} (hx : 'x' ∉ cs) (hb : 'b' ∉ cs) :
    readImmediate cs = readByte 10 cs := by
  unfold readImmediate
  split
  · simp at hx
  · simp at hb
  · rfl

theorem readByte_toDigits (v : Byte) : readByte 10 (Nat.toDigits 10 v.toNat) = some v := by
  cases hd : Nat.toDigits 10 v.toNat with
  | nil => exact absurd hd Nat.toDigits_ne_nil
  | cons c cs => simp [readByte, ← hd, readDigits_toDigits, v.isLt]

/-- An immediate's decimal text reads back. -/
theorem readImmediate_toDigits (v : Byte) : readImmediate (Nat.toDigits 10 v.toNat) = some v := by
  have hletter : ∀ c : Char, c.isDigit = false → c ∉ Nat.toDigits 10 v.toNat := fun c hc hmem => by
    rw [isDigit_of_mem_decimal hmem] at hc; cases hc
  rw [readImmediate_decimal (hletter 'x' (by decide)) (hletter 'b' (by decide)), readByte_toDigits]

theorem readRegister_digit : ∀ d < 8, readRegister ['R', Nat.digitChar d] = some (BitVec.ofNat 8 d) := by decide

/-- A register's name reads back (R15). -/
theorem readRegister_registerName {a : Byte} (h : a.toNat < 8) : readRegister (registerName a) = some a := by
  rw [registerName, Nat.toDigits_of_lt_base (Nat.lt_of_lt_of_le h (by decide)), readRegister_digit a.toNat h,
    BitVec.ofNat_toNat, BitVec.setWidth_eq]

/-! #### Words and operands -/

/-- Text that is one operand: not empty, with no white space and no comma. -/
def OperandText (cs : List Char) : Prop := cs ≠ [] ∧ ∀ c ∈ cs, isBlank c = false ∧ c ≠ ','

theorem OperandText.noBlank {cs : List Char} (h : OperandText cs) : ∀ c ∈ cs, isBlank c = false :=
  fun c hc => (h.2 c hc).1

theorem OperandText.noComma {cs : List Char} (h : OperandText cs) : ∀ c ∈ cs, (c == ',') = false :=
  fun c hc => beq_false_of_ne (h.2 c hc).2

/-- A digit is neither white space nor a comma. -/
theorem notSeparator_of_isDigit {c : Char} (h : c.isDigit = true) : isBlank c = false ∧ c ≠ ',' := by
  have hne : ∀ d : Char, d.isDigit = false → c ≠ d := by
    rintro d hd rfl; rw [h] at hd; cases hd
  exact ⟨by simp [isBlank, hne ' ' (by decide), hne '\t' (by decide), hne '\r' (by decide)], hne ',' (by decide)⟩

theorem operandText_toDigits (n : Nat) : OperandText (Nat.toDigits 10 n) :=
  ⟨Nat.toDigits_ne_nil, fun _ hc => notSeparator_of_isDigit (isDigit_of_mem_decimal hc)⟩

theorem operandText_registerName (a : Byte) : OperandText (registerName a) :=
  ⟨List.cons_ne_nil _ _, List.forall_mem_cons.mpr ⟨by decide, (operandText_toDigits a.toNat).2⟩⟩

theorem mnemonic_noBlank (o : Op) : ∀ c ∈ mnemonic o, isBlank c = false := by
  cases o <;> simp [mnemonic, isBlank]

/-- No two rows share a mnemonic. -/
theorem readMnemonic_mnemonic (o : Op) : readMnemonic (mnemonic o) = some o := by cases o <;> rfl

theorem dropWhile_isBlank {cs : List Char} (h : ∀ c ∈ cs, isBlank c = false) : cs.dropWhile isBlank = cs :=
  List.dropWhile_eq_self_iff.mpr fun hpos => by simp [h _ (List.getElem_mem hpos)]

theorem trimBlanks_noBlank {cs : List Char} (h : ∀ c ∈ cs, isBlank c = false) : trimBlanks cs = cs := by
  rw [trimBlanks, dropWhile_isBlank h, dropWhile_isBlank fun c hc => h c (List.mem_reverse.mp hc), List.reverse_reverse]

theorem splitAtChars_noSep {isSep : Char → Bool} {cs : List Char} (h : ∀ c ∈ cs, isSep c = false) :
    splitAtChars isSep cs = [cs] := by
  induction cs with
  | nil => rfl
  | cons c cs ih =>
    obtain ⟨hc, hcs⟩ := List.forall_mem_cons.mp h
    simp [splitAtChars, hc, ih hcs]

theorem splitAtChars_append {isSep : Char → Bool} {cs ds : List Char} {sep : Char}
    (h : ∀ c ∈ cs, isSep c = false) (hsep : isSep sep = true) :
    splitAtChars isSep (cs ++ sep :: ds) = cs :: splitAtChars isSep ds := by
  induction cs with
  | nil => simp [splitAtChars, hsep]
  | cons c cs ih =>
    obtain ⟨hc, hcs⟩ := List.forall_mem_cons.mp h
    simp [splitAtChars, hc, ih hcs]

/-- The operands of a statement with one, as the reader separates them. -/
theorem splitOperands_one {ta : List Char} (hta : OperandText ta) :
    (splitAtChars (· == ',') ta).map trimBlanks = [ta] := by
  rw [splitAtChars_noSep hta.noComma, List.map_singleton, trimBlanks_noBlank hta.noBlank]

/-- The operands of a statement with two. -/
theorem splitOperands_two {ta tb : List Char} (hta : OperandText ta) (htb : OperandText tb) :
    (splitAtChars (· == ',') (ta ++ ',' :: tb)).map trimBlanks = [ta, tb] := by
  rw [splitAtChars_append hta.noComma rfl, List.map_cons, splitOperands_one htb, trimBlanks_noBlank hta.noBlank]

theorem noBlank_operands {ta tb : List Char} (hta : OperandText ta) (htb : OperandText tb) :
    ∀ c ∈ ta ++ ',' :: tb, isBlank c = false :=
  List.forall_mem_append.mpr ⟨hta.noBlank, List.forall_mem_cons.mpr ⟨rfl, htb.noBlank⟩⟩

/-! #### One instruction's text, by format -/

section Formats

variable {o : Op} {ta tb : List Char} {a b : Byte}

/-- A mnemonic followed by a blank is the statement's word, and what follows is its rest. -/
theorem takeWhile_mnemonic (o : Op) (cs : List Char) :
    (mnemonic o ++ ' ' :: cs).takeWhile (fun c => !isBlank c) = mnemonic o := by
  rw [List.takeWhile_append_of_pos fun c hc => by simp [mnemonic_noBlank o c hc]]
  simp [isBlank]

theorem trimBlanks_dropWhile_mnemonic (o : Op) {cs : List Char} (h : ∀ c ∈ cs, isBlank c = false) :
    trimBlanks ((mnemonic o ++ ' ' :: cs).dropWhile (fun c => !isBlank c)) = cs := by
  rw [List.dropWhile_append_of_pos fun c hc => by simp [mnemonic_noBlank o c hc]]
  exact trimBlanks_noBlank h

theorem readInstr_f0 (hf : o.format = .f0) : readInstr (mnemonic o) = some (o.withOperands 0 0) := by
  cases o with
  | hlt | ret => rfl
  | ldi | prn | add | sub | mul | cmp | push | pop | call | jmp | div | jeq | jne => cases hf

theorem readInstr_f1r (hf : o.format = .f1r) (hta : OperandText ta) (ha : readRegister ta = some a) :
    readInstr (mnemonic o ++ ' ' :: ta) = some (o.withOperands a 0) := by
  simp [readInstr, takeWhile_mnemonic, trimBlanks_dropWhile_mnemonic o hta.noBlank, hta.1, readMnemonic_mnemonic,
    hf, splitOperands_one hta, ha]

theorem readInstr_f2rr (hf : o.format = .f2rr) (hta : OperandText ta) (htb : OperandText tb)
    (ha : readRegister ta = some a) (hb : readRegister tb = some b) :
    readInstr (mnemonic o ++ ' ' :: (ta ++ ',' :: tb)) = some (o.withOperands a b) := by
  simp [readInstr, takeWhile_mnemonic, trimBlanks_dropWhile_mnemonic o (noBlank_operands hta htb),
    readMnemonic_mnemonic, hf, splitOperands_two hta htb, ha, hb]

theorem readInstr_f2ri (hf : o.format = .f2ri) (hta : OperandText ta) (htb : OperandText tb)
    (ha : readRegister ta = some a) (hb : readImmediate tb = some b) :
    readInstr (mnemonic o ++ ' ' :: (ta ++ ',' :: tb)) = some (o.withOperands a b) := by
  simp [readInstr, takeWhile_mnemonic, trimBlanks_dropWhile_mnemonic o (noBlank_operands hta htb),
    readMnemonic_mnemonic, hf, splitOperands_two hta htb, ha, hb]

end Formats

/-- A legal instruction's register operands are below 8. -/
theorem registersLegal_iff {i : Instr} : i.registersLegal = true ↔ ∀ r ∈ i.registerOperands, r.toNat < 8 := by
  simp [Instr.registersLegal]

/-- Settles O51: each format's text reads back operand by operand (R66; the spec's decision D30). -/
theorem assemblerTextReadsBack : Obligations.AssemblerTextReadsBack := by
  intro i hlegal
  have hreg : ∀ r ∈ i.registerOperands, readRegister (registerName r) = some r := fun r hr =>
    readRegister_registerName (registersLegal_iff.mp hlegal r hr)
  cases i with
  | hlt => exact readInstr_f0 (o := .hlt) rfl
  | ret => exact readInstr_f0 (o := .ret) rfl
  | prn a | push a | pop a | call a | jmp a | jeq a | jne a =>
    exact readInstr_f1r rfl (operandText_registerName a) (hreg a (by simp [Instr.registerOperands]))
  | add a b | sub a b | mul a b | cmp a b | div a b =>
    exact readInstr_f2rr rfl (operandText_registerName a) (operandText_registerName b)
      (hreg a (by simp [Instr.registerOperands])) (hreg b (by simp [Instr.registerOperands]))
  | ldi a imm =>
    exact readInstr_f2ri rfl (operandText_registerName a) (operandText_toDigits imm.toNat)
      (hreg a (by simp [Instr.registerOperands])) (readImmediate_toDigits imm)

end Sys2Proof.Machine

/-! ### The cycle: which states step, the order of a step, and the faults it takes (40_cycle.md) -/

namespace Sys2Proof.Machine

/-! #### Operand faults

A rule tests its operand bytes before anything else (R75, R76, R111). `TellsLegality` says what those tests decide, and
has one law for each part a rule is sequenced from: what an instruction tests is read off its rule, test by test. -/

/-- An operation whose faults are not the operand faults, codes 2 and 3. -/
def NoOperandFault {α : Type} (x : Except FaultCause α) : Prop := ∀ c, x = .error c → c.code ≠ 2 ∧ c.code ≠ 3

/-- Register operands 0..7 and a destination that is not R7 (R75, R76). -/
def OperandsLegal (regs : List Byte) (dest : Option Byte) : Prop := (∀ r ∈ regs, r.toNat < 8) ∧ dest ≠ some 7

/-- The rule raises an operand fault exactly where these operands are illegal, and a state it gives is not Faulted. -/
def TellsLegality (regs : List Byte) (dest : Option Byte) (x : Except FaultCause State) : Prop :=
  (OperandsLegal regs dest ↔ NoOperandFault x) ∧ ∀ t, x = .ok t → ∀ r, t.status ≠ .faulted r

section OperandFaults

variable {α : Type} {a b v ir : Byte} {s t : State} {ra : Reg} {c : FaultCause} {regs : List Byte} {dest : Option Byte}

theorem noOperandFault_ok (x : α) : NoOperandFault (.ok x : Except FaultCause α) := nofun

theorem noOperandFault_error : NoOperandFault (.error c : Except FaultCause α) ↔ c.code ≠ 2 ∧ c.code ≠ 3 := by
  simp [NoOperandFault]

/-- The shape of the checks that are not about operands: one test, one fault. -/
theorem noOperandFault_ite {p : Prop} [Decidable p] (x : α) (hc : c.code ≠ 2 ∧ c.code ≠ 3) :
    NoOperandFault (if p then .error c else .ok x) := by
  split
  · exact noOperandFault_error.mpr hc
  · exact noOperandFault_ok x

theorem noOperandFault_seqPc : NoOperandFault (seqPc ir s) := noOperandFault_ite _ (by simp [FaultCause.code])

theorem noOperandFault_returnAddress : NoOperandFault (returnAddress ir s) :=
  noOperandFault_ite _ (by simp [FaultCause.code])

theorem noOperandFault_pushByte : NoOperandFault (pushByte v s) := noOperandFault_ite _ (by simp [FaultCause.code])

theorem noOperandFault_topOfStack : NoOperandFault (topOfStack s) := noOperandFault_ite _ (by simp [FaultCause.code])

theorem noOperandFault_aluDiv (x y : Byte) : NoOperandFault (aluDiv x y) :=
  noOperandFault_ite _ (by simp [FaultCause.code])

theorem operandsLegal_nil : OperandsLegal [] none := ⟨nofun, nofun⟩

theorem operandsLegal_cons : OperandsLegal (a :: regs) dest ↔ a.toNat < 8 ∧ OperandsLegal regs dest := by
  simp only [OperandsLegal, List.forall_mem_cons, and_assoc]

theorem operandsLegal_dest : OperandsLegal [] (some a) ↔ a ≠ 7 := by simp [OperandsLegal]

theorem tellsLegality_ok (h : ∀ r, t.status ≠ .faulted r) : TellsLegality [] none (.ok t) :=
  ⟨iff_of_true operandsLegal_nil (noOperandFault_ok t), fun _ ht => by cases ht; exact h⟩

theorem tellsLegality_error (h : OperandsLegal regs dest ↔ c.code ≠ 2 ∧ c.code ≠ 3) :
    TellsLegality regs dest (.error c) :=
  ⟨h.trans noOperandFault_error.symm, nofun⟩

/-- Once the operands are tested, only other faults can be raised. -/
theorem tellsLegality_bind {x : Except FaultCause α} {f : α → Except FaultCause State} (hx : NoOperandFault x)
    (hf : ∀ y, x = .ok y → TellsLegality [] none (f y)) : TellsLegality [] none (x >>= f) := by
  cases x with
  | ok y => exact hf y rfl
  | error c => exact tellsLegality_error (iff_of_true operandsLegal_nil (hx c rfl))

/-- The test of a register operand (R75; the spec's decision D12). -/
theorem tellsLegality_regOperand {f : Reg → Except FaultCause State}
    (hf : ∀ ra : Reg, ra.val = a.toNat → TellsLegality regs dest (f ra)) :
    TellsLegality (a :: regs) dest (regOperand a >>= f) := by
  by_cases ha : a.toNat < 8
  · have hrest := hf ⟨a.toNat, ha⟩ rfl
    rw [regOperand_of_val (r := ⟨a.toNat, ha⟩) rfl]
    rwa [TellsLegality, operandsLegal_cons, and_iff_right ha]
  · rw [regOperand_illegal (Nat.le_of_not_lt ha)]
    exact tellsLegality_error (iff_of_false (fun h => ha (operandsLegal_cons.mp h).1) (by simp [FaultCause.code]))

/-- The test of a destination, a register already (R19, R76; the spec's decision D13). -/
theorem tellsLegality_destOperand {f : Reg → Except FaultCause State} (hra : ra.val = a.toNat)
    (hf : TellsLegality [] none (f ra)) : TellsLegality [] (some a) (destOperand ra >>= f) := by
  have hsp : ra = sp ↔ a = 7 := by rw [Fin.ext_iff, hra, ← BitVec.toNat_inj]; rfl
  by_cases ha : a = 7
  · rw [hsp.mpr ha, destOperand_sp]
    exact tellsLegality_error (iff_of_false (fun h => operandsLegal_dest.mp h ha) (by simp [FaultCause.code]))
  · rw [destOperand_other (mt hsp.mp ha)]
    obtain ⟨htests, hstatus⟩ := hf
    exact ⟨(iff_of_true (operandsLegal_dest.mpr ha) operandsLegal_nil).trans htests, hstatus⟩

theorem pushByte_status (h : pushByte v s = .ok t) : t.status = s.status := by
  obtain ⟨-, rfl⟩ := pushByte_ok_iff.mp h
  rfl

variable (hrun : s.status = .running)
include hrun

/-- A rule that leaves a Running state's status alone gives no Faulted state. -/
theorem tellsLegality_kept (h : t.status = s.status) : TellsLegality [] none (.ok t) :=
  tellsLegality_ok fun r => by rw [h, hrun]; nofun

/-- Where a rule ends with the sequential advance. -/
theorem tellsLegality_seqPc (h : t.status = s.status) :
    TellsLegality [] none (seqPc ir s >>= fun n => pure (t.setPc n)) :=
  tellsLegality_bind noOperandFault_seqPc fun _ _ => tellsLegality_kept hrun h

theorem tellsLegality_aluWrite {f : Byte → Byte → Except FaultCause Byte} (hf : ∀ x y, NoOperandFault (f x y)) :
    TellsLegality [a, b] (some a) (aluWrite ir f a b s) :=
  tellsLegality_regOperand fun _ hra => tellsLegality_regOperand fun _ _ => tellsLegality_destOperand hra <|
    tellsLegality_bind (hf _ _) fun _ _ => tellsLegality_seqPc hrun rfl

theorem tellsLegality_branchIf {taken : Bool} : TellsLegality [a] none (branchIf taken ir a s) := by
  refine tellsLegality_regOperand fun ra _ => ?_
  cases taken with
  | true => exact tellsLegality_kept hrun rfl
  | false => exact tellsLegality_seqPc hrun rfl

/-- Every instruction commits a rule that tests the operands its format marks (R75, R76). -/
theorem exec_tellsLegality (i : Instr) : ∃ x, exec i s = commit i.op.opcode s x ∧
    TellsLegality i.registerOperands i.destination x := by
  cases i with
  | hlt => exact ⟨_, rfl, tellsLegality_ok nofun⟩
  | ldi a imm =>
    exact ⟨_, rfl, tellsLegality_regOperand fun _ hra => tellsLegality_destOperand hra <| tellsLegality_seqPc hrun rfl⟩
  | prn a => exact ⟨_, rfl, tellsLegality_regOperand fun _ _ => tellsLegality_seqPc hrun rfl⟩
  | add a b | sub a b | mul a b => exact ⟨_, rfl, tellsLegality_aluWrite hrun fun _ _ => noOperandFault_ok _⟩
  | div a b => exact ⟨_, rfl, tellsLegality_aluWrite hrun noOperandFault_aluDiv⟩
  | cmp a b =>
    exact ⟨_, rfl, tellsLegality_regOperand fun _ _ => tellsLegality_regOperand fun _ _ => tellsLegality_seqPc hrun rfl⟩
  | push a =>
    exact ⟨_, rfl, tellsLegality_regOperand fun _ _ => tellsLegality_bind noOperandFault_pushByte fun t ht =>
      tellsLegality_seqPc hrun (pushByte_status ht)⟩
  | pop a =>
    exact ⟨_, rfl, tellsLegality_regOperand fun _ hra => tellsLegality_destOperand hra <|
      tellsLegality_bind noOperandFault_topOfStack fun _ _ => tellsLegality_seqPc hrun rfl⟩
  | call a =>
    exact ⟨_, rfl, tellsLegality_regOperand fun _ _ => tellsLegality_bind noOperandFault_returnAddress fun _ _ =>
      tellsLegality_bind noOperandFault_pushByte fun t ht => tellsLegality_kept hrun (pushByte_status (t := t) ht)⟩
  | ret => exact ⟨_, rfl, tellsLegality_bind noOperandFault_topOfStack fun _ _ => tellsLegality_kept hrun rfl⟩
  | jmp a => exact ⟨_, rfl, tellsLegality_regOperand fun _ _ => tellsLegality_kept hrun rfl⟩
  | jeq a | jne a => exact ⟨_, rfl, tellsLegality_branchIf hrun⟩

end OperandFaults

/-- What a commit answers tells the same: a committed state carries no record, a fault carries its cause's code. -/
theorem commit_tellsLegality {ir : Byte} {s : State} {regs : List Byte} {dest : Option Byte}
    {x : Except FaultCause State} (hx : TellsLegality regs dest x) : ∃ t, commit ir s x = .next t ∧
      (OperandsLegal regs dest ↔ ∀ r : FaultRec, t.status = .faulted r → r.kind ≠ 2 ∧ r.kind ≠ 3) := by
  obtain ⟨hlegal, hstatus⟩ := hx
  cases x with
  | ok t => exact ⟨t, rfl, iff_of_true (hlegal.mpr (noOperandFault_ok t)) fun r hr => absurd hr (hstatus t rfl r)⟩
  | error c =>
    refine ⟨_, rfl, hlegal.trans (noOperandFault_error.trans ?_)⟩
    rw [takeFault_status]
    simp [FaultRec.kind]

theorem operandsLegal_iff (i : Instr) : i.registersLegal = true ∧ i.destinationLegal = true ↔
    OperandsLegal i.registerOperands i.destination := by
  rw [registersLegal_iff, Instr.destinationLegal, decide_eq_true_eq, OperandsLegal]

/-- Settles O31: each rule tests its operands before it can raise anything else (R75, R76, R111; the spec's decisions
D12 and D13). -/
theorem operandFaultsAreExactlyTheIllegalOperands : Obligations.OperandFaultsAreExactlyTheIllegalOperands := by
  intro i s hrun
  obtain ⟨x, hexec, hx⟩ := exec_tellsLegality hrun i
  rw [hexec, operandsLegal_iff]
  exact commit_tellsLegality hx

/-! #### The step -/

/-- Settles O7: the step of a Running state adds nothing to the meaning of what it decodes (R74, R82). -/
theorem stepRunsTheDecodedInstruction : Obligations.StepRunsTheDecodedInstruction := by
  intro s i rest hrun hdec
  rw [step_running hrun, hdec]

/-- Settles O9: the three outcomes of the fetch, with the width field read as the byte divided by 64 (R70, R71, R73;
the spec's decisions D4 and D6). -/
theorem stepFetchesThenLooksUpThenDispatches : Obligations.StepFetchesThenLooksUpThenDispatches := by
  rintro s ir ⟨hrun, hpc, rfl⟩
  rw [← operandCount_eq]
  exact ⟨step_unknown hrun hpc, fun _ => step_operandFetch hrun hpc, fun _ => step_exec hrun hpc⟩

theorem step_halted {s : State} (h : s.status = .halted) : step s = .fault .alreadyHalted := by simp [step, h]

theorem step_faulted {s : State} {r : FaultRec} (h : s.status = .faulted r) : step s = .fault (.alreadyFaulted r) := by
  simp [step, h]

/-- Settles O10: only a Running state fetches, and whatever it fetches it has a next state (R69, R131; the spec's
decision D16). -/
theorem onlyRunningStatesStep : Obligations.OnlyRunningStatesStep :=
  ⟨fun _ => step_halted, fun _ _ => step_faulted, fun _ => step_answers⟩

/-- Settles O11: an instruction's meaning is a commit, and a fault it takes is a next state (R74, R113). -/
theorem everyInstructionAnswersANextState : Obligations.EveryInstructionAnswersANextState :=
  exec_answers

/-- Settles O35: of the three ways a step can end, only taking a fault is Faulted, and that writes `status` alone
(R80, R104, R106, R113; the spec's decision D5). -/
theorem everyFaultIsPrecise : Obligations.EveryFaultIsPrecise := by
  intro s t r h hfault
  obtain ⟨hrun, -, heff⟩ := step_effect h
  obtain ⟨c, rfl⟩ | ⟨-, hhalt, -⟩ | ⟨hstatus, -⟩ := heff.ending
  · rw [takeFault_status] at hfault
    cases hfault
    exact ⟨rfl, rfl, rfl⟩
  · rw [hhalt] at hfault; cases hfault
  · rw [hstatus, hrun] at hfault; cases hfault

end Sys2Proof.Machine

/-! ### HLT, LDI and PRN, and how the step comes to each row (41_machine_and_load.md) -/

namespace Sys2Proof.Machine

open Sys2Proof.Claims

/-! #### The fetch of a row -/

/-- How the step comes to any row of the opcode map: the gate, then the operand bytes, then the row's meaning with the
bytes after the opcode byte (R70, R71, R73, R74; the spec's decision D4). -/
theorem fetches_row (o : Op) :
    Fetches (fun cfg => o.enabled cfg) o.opcode o.format.operandCount (fun x y => o.withOperands x y) := by
  rintro s ⟨hrun, hpc, hir⟩
  have hcount : operandCount (Memory.read s.mem s.pc.toNat) = o.format.operandCount := by
    rw [hir, operandCount_opcode]
  have hlookup : o.enabled s.cfg = true → lookup s.cfg (Memory.read s.mem s.pc.toNat) = some o := fun hen => by
    rw [hir, lookup_opcode hen]
  refine ⟨fun hoff => ?_, fun hen hlong => ?_, fun hen hfits => ?_⟩
  · have hnone : lookup s.cfg (Memory.read s.mem s.pc.toNat) = none :=
      lookup_none_iff.mpr fun p hp => by rwa [opcode_injective (hp.trans hir)]
    rw [step_unknown hrun hpc hnone, hir]; rfl
  · rw [step_operandFetch hrun hpc (hlookup hen) (hcount ▸ hlong), hir]; rfl
  · exact step_exec hrun hpc (hlookup hen) (hcount ▸ hfits)

/-! #### A rule, test by test

A rule is a sequence of tests before one commit. Each test either ends it in that test's fault, with every write
discarded (R80), or leaves the rest of the rule to commit. -/

section Rules

variable {α : Type} {ir : Byte} {s : State} {c : FaultCause}
  {x : Except FaultCause α} {f : α → Except FaultCause State}

theorem commit_bind_error (hx : x = .error c) :
    commit ir s (x >>= f) = .next (faultState s c ir) := by
  rw [hx]; rfl

theorem commit_bind_ok {y : α} (hx : x = .ok y) :
    commit ir s (x >>= f) = commit ir s (f y) := by
  rw [hx]; rfl

/-- A row's sequential advance, by its operand bytes and one, past 255 (R72, R77). -/
theorem seqPc_row_past (o : Op) (h : s.pc.toNat + (o.format.operandCount + 1) > 255) :
    seqPc o.opcode s = .error (.oorPc (s.pc.toNat + (o.format.operandCount + 1))) := by
  rw [← instrWidth_opcode] at h ⊢
  exact seqPc_past h

/-- A row's sequential advance inside memory (R72, R77). -/
theorem exists_seqPc_row (o : Op) (h : s.pc.toNat + (o.format.operandCount + 1) ≤ 255) :
    ∃ n, seqPc o.opcode s = .ok n ∧ n.toNat = s.pc.toNat + (o.format.operandCount + 1) := by
  rw [← instrWidth_opcode] at h ⊢
  exact ⟨_, seqPc_ok h, (seqPc_ok_iff.mp (seqPc_ok h)).2⟩

/-- Writing one register and advancing keeps every other register. -/
theorem regsKeptBut_write (s : State) (r : Reg) (v : Byte) (n : PcWord) :
    RegsKeptBut s ((s.setReg r v).setPc n) [r] := fun _ hq =>
  reg_setReg_other s r v (List.ne_of_not_mem_cons hq)

end Rules

/-! #### HLT -/

/-- Settles O13: HLT's rule tests nothing and writes pc and `status` alone; from 255 its pc is 256, which nine bits
hold (R79, R83; the spec's decision D7). -/
theorem hltHaltsAndAdvancesByOne : Obligations.HltHaltsAndAdvancesByOne := by
  refine ⟨fetches_row .hlt, fun s => ?_⟩
  have hnext : s.pc.toNat ≤ 255 → (s.pc + 1).toNat = s.pc.toNat + 1 := fun hpc => by bv_omega
  exact ⟨{ s with pc := s.pc + 1, status := .halted }, rfl, rfl, rfl, hnext, fun _ _ => rfl, fun _ => rfl, rfl, rfl,
    step_halted rfl⟩

/-! #### LDI -/

section Ldi

variable {a imm : Byte} {s : State} {ra : Reg}

theorem execLdi_illegalRegister (h : 7 < a.toNat) :
    execLdi a imm s = .next (faultState s (.illegalRegister a) Op.ldi.opcode) :=
  commit_bind_error (regOperand_illegal h)

/-- Once the register operand is legal, the rest of LDI's rule is about a register. -/
theorem execLdi_of_val (hra : ra.val = a.toNat) :
    execLdi a imm s = commit Op.ldi.opcode s (destOperand ra >>= fun rd =>
      seqPc Op.ldi.opcode s >>= fun n => pure ((s.setReg rd imm).setPc n)) :=
  commit_bind_ok (regOperand_of_val hra)

theorem execLdi_spWrite (hsp : sp.val = a.toNat) :
    execLdi a imm s = .next (faultState s .spWrite Op.ldi.opcode) :=
  (execLdi_of_val hsp).trans (commit_bind_error destOperand_sp)

theorem execLdi_of_dest (hra : ra.val = a.toNat) (hsp : ra ≠ sp) :
    execLdi a imm s = commit Op.ldi.opcode s
      (seqPc Op.ldi.opcode s >>= fun n => pure ((s.setReg ra imm).setPc n)) :=
  (execLdi_of_val hra).trans (commit_bind_ok (destOperand_other hsp))

end Ldi

/-- Settles O14: the register, the destination and the advance are tested in that order (R111), and what is left is
one register write and the advance (R84). -/
theorem ldiLoadsTheImmediate : Obligations.LdiLoadsTheImmediate := by
  refine ⟨fetches_row .ldi, fun a imm s => ⟨execLdi_illegalRegister, fun h7 => execLdi_spWrite h7.symm,
    fun ha hpast => ?_, fun ra hra hsp hfits => ?_⟩⟩
  · obtain ⟨ra, hra⟩ := exists_reg (Nat.le_of_lt ha)
    have hsp : ra ≠ sp := by rintro rfl; exact absurd hra.symm (Nat.ne_of_lt ha)
    exact (execLdi_of_dest hra hsp).trans (commit_bind_error (seqPc_row_past .ldi hpast))
  · obtain ⟨n, hn, hpc⟩ := exists_seqPc_row .ldi hfits
    exact ⟨(s.setReg ra imm).setPc n, (execLdi_of_dest hra hsp).trans (commit_bind_ok hn), reg_setReg_same s ra imm,
      hpc, regsKeptBut_write s ra imm n, fun _ => rfl, rfl, rfl, rfl, rfl⟩

/-! #### PRN -/

section Prn

variable {a : Byte} {s : State} {ra : Reg}

theorem execPrn_illegalRegister (h : 7 < a.toNat) :
    execPrn a s = .next (faultState s (.illegalRegister a) Op.prn.opcode) :=
  commit_bind_error (regOperand_illegal h)

/-- Once the register operand is legal, only the advance is left to test. -/
theorem execPrn_of_val (hra : ra.val = a.toNat) :
    execPrn a s = commit Op.prn.opcode s
      (seqPc Op.prn.opcode s >>= fun n => pure ((s.output (s.reg ra)).setPc n)) :=
  commit_bind_ok (regOperand_of_val hra)

end Prn

/-- Settles O15: the register and the advance are tested before the value is appended, so a fault prints nothing
(R85, R111; the spec's decision D17). -/
theorem prnAppendsTheRegister : Obligations.PrnAppendsTheRegister := by
  refine ⟨fetches_row .prn, fun a s => ⟨execPrn_illegalRegister, fun ha hpast => ?_, fun ra hra hfits => ?_⟩⟩
  · obtain ⟨ra, hra⟩ := exists_reg ha
    exact (execPrn_of_val hra).trans (commit_bind_error (seqPc_row_past .prn hpast))
  · obtain ⟨n, hn, hpc⟩ := exists_seqPc_row .prn hfits
    exact ⟨(s.output (s.reg ra)).setPc n, (execPrn_of_val hra).trans (commit_bind_ok hn), rfl, hpc, fun _ _ => rfl,
      fun _ => rfl, rfl, rfl, rfl⟩

/-! #### The printed text -/

theorem digitChar_eq_zero : ∀ d < 10, Nat.digitChar d = '0' → d = 0 := by decide

/-- Only the number 0 begins with the digit 0: the first digit is that of the number without its last digit, down to
one digit. -/
theorem toDigits_leadingZero {n : Nat} : ∀ {cs : List Char}, Nat.toDigits 10 n = '0' :: cs → cs = [] ∧ n = 0 := by
  induction n using Nat.strong_induction_on with
  | _ n ih =>
    intro cs hdigits
    by_cases hn : n < 10
    · rw [Nat.toDigits_of_lt_base hn] at hdigits
      obtain ⟨hzero, hnil⟩ := List.cons.inj hdigits
      exact ⟨hnil.symm, digitChar_eq_zero n hn hzero⟩
    · rw [Nat.toDigits_of_base_le (by decide) (Nat.le_of_not_lt hn)] at hdigits
      obtain ⟨hnil, -⟩ | ⟨ds, hfirst, -⟩ := List.append_eq_cons_iff.mp hdigits
      · exact absurd hnil Nat.toDigits_ne_nil
      · obtain ⟨-, hzero⟩ := ih (n / 10) (by omega) hfirst
        omega

/-- Settles O50: the digits of R29 are those the reader reads back, and only 0 begins with a 0 (R85; the spec's
decision D17). -/
theorem printedDigitsAreTheDecimalValue : Obligations.PrintedDigitsAreTheDecimalValue := by
  refine fun v => ⟨readDigits_toDigits v.toNat, ?_, Nat.toDigits_ne_nil⟩
  rintro c cs hdigits rfl
  obtain ⟨hnil, hzero⟩ := toDigits_leadingZero hdigits
  exact ⟨hnil, BitVec.eq_of_toNat_eq hzero⟩

end Sys2Proof.Machine

/-! ### The ALU: ADD, SUB, MUL, CMP and DIV (42_alu.md) -/

namespace Sys2Proof.Machine

open Sys2Proof.Claims

/-! #### A rule that begins with two register operands (R59, R75) -/

section TwoRegisters

variable {a b ir : Byte} {s : State} {ra rb : Reg} {g : Reg → Reg → Except FaultCause State}

/-- Register operand a is tested first, whatever b is (R111). -/
theorem commit_illegalFirst (ha : 7 < a.toNat) :
    commit ir s (regOperand a >>= fun ra => regOperand b >>= g ra) = .next (faultState s (.illegalRegister a) ir) :=
  commit_bind_error (regOperand_illegal ha)

theorem commit_illegalSecond (ha : a.toNat ≤ 7) (hb : 7 < b.toNat) :
    commit ir s (regOperand a >>= fun ra => regOperand b >>= g ra) = .next (faultState s (.illegalRegister b) ir) := by
  obtain ⟨ra, hra⟩ := exists_reg ha
  exact (commit_bind_ok (regOperand_of_val hra)).trans (commit_bind_error (regOperand_illegal hb))

/-- Once both register operands are legal, the rest of the rule is about two registers. -/
theorem commit_twoRegisters (hra : ra.val = a.toNat) (hrb : rb.val = b.toNat) :
    commit ir s (regOperand a >>= fun ra => regOperand b >>= g ra) = commit ir s (g ra rb) :=
  (commit_bind_ok (regOperand_of_val hra)).trans (commit_bind_ok (regOperand_of_val hrb))

end TwoRegisters

/-! #### The two-register forms that write Ra -/

/-- Where `good` holds of the operand values, the operation raises nothing and gives `result` of them. -/
def Computes (f : Byte → Byte → Except FaultCause Byte) (good : Byte → Byte → Prop)
    (result : Int → Int → Int) : Prop :=
  ∀ x y, good x y → ∃ v, f x y = .ok v ∧ (v.toNat : Int) = result x.toNat y.toNat

/-- The instructions of a two-register row of the table whose meaning is the shared rule `aluWrite` with operation
`f`. -/
def WritesByAlu (mk : Byte → Byte → Instr) (o : Op) (f : Byte → Byte → Except FaultCause Byte) : Prop :=
  o.format = .f2rr ∧ ∀ a b s, exec (mk a b) s = commit o.opcode s (aluWrite o.opcode f a b s)

section AluWrite

variable {mk : Byte → Byte → Instr} {o : Op} {f : Byte → Byte → Except FaultCause Byte}
  {good : Byte → Byte → Prop} {result : Int → Int → Int}
  {a b v ir : Byte} {s : State} {ra rb : Reg}

theorem aluWrite_spWrite (ha : a.toNat = 7) (hb : b.toNat ≤ 7) :
    commit ir s (aluWrite ir f a b s) = .next (faultState s .spWrite ir) := by
  obtain ⟨rb, hrb⟩ := exists_reg hb
  exact (commit_twoRegisters (ra := sp) ha.symm hrb).trans (commit_bind_error destOperand_sp)

/-- Once the operands are legal, what is left is the operation, the advance and the write, in that order (R111). -/
theorem aluWrite_of_dest (hra : ra.val = a.toNat) (hrb : rb.val = b.toNat) (hsp : ra ≠ sp) :
    commit ir s (aluWrite ir f a b s) = commit ir s (f (s.reg ra) (s.reg rb) >>= fun v =>
      seqPc ir s >>= fun n => pure ((s.setReg ra v).setPc n)) :=
  (commit_twoRegisters hra hrb).trans (commit_bind_ok (destOperand_other hsp))

/-- Once the operation has given its value, only the advance is left to test. -/
theorem aluWrite_of_value (hra : ra.val = a.toNat) (hrb : rb.val = b.toNat) (hsp : ra ≠ sp)
    (hv : f (s.reg ra) (s.reg rb) = .ok v) :
    commit ir s (aluWrite ir f a b s) = commit ir s (seqPc ir s >>= fun n => pure ((s.setReg ra v).setPc n)) :=
  (aluWrite_of_dest hra hrb hsp).trans (commit_bind_ok hv)

/-- The faults of the shared rule, in the order of its tests. -/
theorem WritesByAlu.faults (h : WritesByAlu mk o f) (hf : Computes f good result) :
    TwoRegisterFaults mk o.opcode good := by
  obtain ⟨hformat, hexec⟩ := h
  intro a b s
  rw [hexec]
  refine ⟨commit_illegalFirst, commit_illegalSecond, aluWrite_spWrite, fun ra rb hra hrb hsp hgood hpast => ?_⟩
  obtain ⟨v, hv, -⟩ := hf _ _ hgood
  have hadvance := seqPc_row_past (s := s) o (by rwa [hformat])
  rw [hformat] at hadvance
  exact (aluWrite_of_value hra hrb hsp hv).trans (commit_bind_error hadvance)

/-- The shared rule's effect: one register write and the advance. -/
theorem WritesByAlu.effect (h : WritesByAlu mk o f) (hf : Computes f good result) :
    TwoRegisterResult mk good result := by
  obtain ⟨hformat, hexec⟩ := h
  intro a b s ra rb hra hrb hsp hgood hfits
  obtain ⟨v, hv, hresult⟩ := hf _ _ hgood
  obtain ⟨n, hn, hpc⟩ := exists_seqPc_row (s := s) o (by rwa [hformat])
  rw [hformat] at hpc
  refine ⟨(s.setReg ra v).setPc n, ?_, ?_, hpc, regsKeptBut_write s ra v n, fun _ => rfl, rfl, rfl, rfl, rfl⟩
  · exact (hexec a b s).trans ((aluWrite_of_value hra hrb hsp hv).trans (commit_bind_ok hn))
  · rw [setPc_reg, reg_setReg_same, hresult]

end AluWrite

/-! #### ADD, SUB and MUL: a total operation narrowed to a byte (R20, R91) -/

theorem computes_aluAdd : Computes (fun x y => .ok (aluAdd x y)) (fun _ _ => True) (fun x y => (x + y) % 256) :=
  fun x y _ => ⟨aluAdd x y, rfl, by rw [aluAdd_toNat]; norm_cast⟩

theorem computes_aluSub : Computes (fun x y => .ok (aluSub x y)) (fun _ _ => True) (fun x y => (x - y) % 256) :=
  fun x y _ => ⟨aluSub x y, rfl, aluSub_toInt x y⟩

theorem computes_aluMul : Computes (fun x y => .ok (aluMul x y)) (fun _ _ => True) (fun x y => (x * y) % 256) :=
  fun x y _ => ⟨aluMul x y, rfl, by rw [aluMul_toNat]; norm_cast⟩

theorem writesByAlu_add : WritesByAlu .add .add fun x y => .ok (aluAdd x y) := ⟨rfl, fun _ _ _ => rfl⟩
theorem writesByAlu_sub : WritesByAlu .sub .sub fun x y => .ok (aluSub x y) := ⟨rfl, fun _ _ _ => rfl⟩
theorem writesByAlu_mul : WritesByAlu .mul .mul fun x y => .ok (aluMul x y) := ⟨rfl, fun _ _ _ => rfl⟩

/-- Settles O16: the shared rule with the sum modulo 256 (R86). -/
theorem addWritesTheSumModulo256 : Obligations.AddWritesTheSumModulo256 :=
  ⟨fetches_row .add, writesByAlu_add.faults computes_aluAdd, writesByAlu_add.effect computes_aluAdd⟩

/-- Settles O17: the shared rule with the difference modulo 256, which is never negative (R87). -/
theorem subWritesTheDifferenceModulo256 : Obligations.SubWritesTheDifferenceModulo256 :=
  ⟨fetches_row .sub, writesByAlu_sub.faults computes_aluSub, writesByAlu_sub.effect computes_aluSub⟩

/-- Settles O18: the shared rule with the product modulo 256 (R88). -/
theorem mulWritesTheProductModulo256 : Obligations.MulWritesTheProductModulo256 :=
  ⟨fetches_row .mul, writesByAlu_mul.faults computes_aluMul, writesByAlu_mul.effect computes_aluMul⟩

/-! #### DIV -/

/-- A quotient of bytes is a byte, so only a zero divisor keeps the operation from giving it. -/
theorem computes_aluDiv : Computes aluDiv (fun _ y => y ≠ 0) (fun x y => x / y) :=
  fun x y hy => ⟨_, aluDiv_ok x hy, by rw [aluQuotient_toNat]; norm_cast⟩

theorem writesByAlu_div : WritesByAlu .div .div aluDiv := ⟨rfl, fun _ _ _ => rfl⟩

/-- Settles O20: the shared rule with an operation that faults on a zero divisor, before the advance is tested
(R90, R111; the spec's decision D20). -/
theorem divWritesTheFloorOfTheQuotient : Obligations.DivWritesTheFloorOfTheQuotient := by
  refine ⟨fetches_row .div, writesByAlu_div.faults computes_aluDiv, writesByAlu_div.effect computes_aluDiv,
    fun a b s ra rb hra hrb hsp hzero => ?_⟩
  have hraises : aluDiv (s.reg ra) (s.reg rb) = .error .divByZero := by rw [hzero, aluDiv_zero]
  exact (aluWrite_of_dest hra hrb hsp).trans (commit_bind_error hraises)

/-! #### CMP -/

section CompareFlags

variable (x y : Byte)

theorem compareFlags_eq_iff : (compareFlags x y).eq = true ↔ x.toNat = y.toNat := decide_eq_true_iff
theorem compareFlags_lt_iff : (compareFlags x y).lt = true ↔ x.toNat < y.toNat := decide_eq_true_iff
theorem compareFlags_gt_iff : (compareFlags x y).gt = true ↔ x.toNat > y.toNat := decide_eq_true_iff

/-- The unsigned order is total, so one flag is set, and strict, so it is the only one (R26, R89). -/
theorem compareFlags_exactlyOne :
    [(compareFlags x y).eq, (compareFlags x y).lt, (compareFlags x y).gt].count true = 1 := by
  obtain hlt | heq | hgt := lt_trichotomy x.toNat y.toNat
  · simp [compareFlags, hlt, hlt.ne, hlt.not_gt]
  · simp [compareFlags, heq]
  · simp [compareFlags, hgt, hgt.ne', hgt.not_gt]

end CompareFlags

/-- Once both register operands are legal, R7 among them, only the advance is left to test. -/
theorem execCmp_of_val {a b : Byte} {s : State} {ra rb : Reg} (hra : ra.val = a.toNat) (hrb : rb.val = b.toNat) :
    execCmp a b s = commit Op.cmp.opcode s (seqPc Op.cmp.opcode s >>= fun n =>
      pure ((s.setFlags (compareFlags (s.reg ra) (s.reg rb))).setPc n)) :=
  commit_twoRegisters hra hrb

/-- Settles O19: both registers and the advance are tested in that order (R111), and what is left is the write of the
flag group and the advance (R89). -/
theorem cmpSetsExactlyOneFlag : Obligations.CmpSetsExactlyOneFlag := by
  refine ⟨fetches_row .cmp, fun a b s => ⟨commit_illegalFirst, commit_illegalSecond, fun ha hb hpast => ?_,
    fun ra rb hra hrb hfits => ?_⟩⟩
  · obtain ⟨ra, hra⟩ := exists_reg ha
    obtain ⟨rb, hrb⟩ := exists_reg hb
    exact (execCmp_of_val hra hrb).trans (commit_bind_error (seqPc_row_past .cmp hpast))
  · obtain ⟨n, hn, hpc⟩ := exists_seqPc_row .cmp hfits
    exact ⟨(s.setFlags (compareFlags (s.reg ra) (s.reg rb))).setPc n,
      (execCmp_of_val hra hrb).trans (commit_bind_ok hn), compareFlags_eq_iff _ _, compareFlags_lt_iff _ _,
      compareFlags_gt_iff _ _, compareFlags_exactlyOne _ _, hpc, fun _ _ => rfl, fun _ => rfl, rfl, rfl, rfl⟩

end Sys2Proof.Machine

/-! ### The stack: PUSH and POP (43_stack.md) -/

namespace Sys2Proof.Machine

open Sys2Proof.Claims

/-! #### PUSH -/

section Push

variable {a : Byte} {s : State} {ra : Reg}

theorem execPush_illegalRegister (h : 7 < a.toNat) :
    execPush a s = .next (faultState s (.illegalRegister a) Op.push.opcode) :=
  commit_bind_error (regOperand_illegal h)

/-- Once the register operand is legal, the value to be pushed is what the register holds before SP changes (D14). -/
theorem execPush_of_val (hra : ra.val = a.toNat) :
    execPush a s = commit Op.push.opcode s (pushByte (s.reg ra) s >>= fun t =>
      seqPc Op.push.opcode s >>= fun n => pure (t.setPc n)) :=
  commit_bind_ok (regOperand_of_val hra)

/-- Once there is room on the stack, only the advance is left to test. -/
theorem execPush_of_room (hra : ra.val = a.toNat) (hroom : s.reg sp ≠ 0) :
    execPush a s = commit Op.push.opcode s (seqPc Op.push.opcode s >>= fun n =>
      pure (((s.memWrite (pushAddress s) (s.reg ra)).setReg sp (pushAddress s)).setPc n)) :=
  (execPush_of_val hra).trans (commit_bind_ok (pushByte_ok hroom))

end Push

/-- Settles O21: the register, the stack bound and the advance are tested in that order (R111), and what is left is the
one memory write, the new SP and the advance (R93, R94; the spec's decisions D2, D10 and D14). -/
theorem pushStoresBelowTheStackPointer : Obligations.PushStoresBelowTheStackPointer := by
  refine ⟨fetches_row .push, fun a s => ⟨execPush_illegalRegister, fun ha hfull => ?_, fun ha hroom hpast => ?_,
    fun ra hra hroom hfits => ?_⟩⟩
  · obtain ⟨ra, hra⟩ := exists_reg ha
    exact (execPush_of_val hra).trans (commit_bind_error (pushByte_overflow hfull))
  · obtain ⟨ra, hra⟩ := exists_reg ha
    exact (execPush_of_room hra hroom).trans (commit_bind_error (seqPc_row_past .push hpast))
  · obtain ⟨n, hn, hpc⟩ := exists_seqPc_row .push hfits
    exact ⟨((s.memWrite (pushAddress s) (s.reg ra)).setReg sp (pushAddress s)).setPc n,
      (execPush_of_room hra hroom).trans (commit_bind_ok hn), pushAddress_toNat hroom, read_write_same s.mem _ _,
      fun _ => read_write_other s.mem _, reg_setReg_same _ sp _, regsKeptBut_write (s.memWrite _ _) sp _ n, hpc, rfl,
      rfl, rfl, rfl⟩

/-! #### POP -/

section Pop

variable {a v : Byte} {s : State} {r : Reg}

/-- A byte below 7 is the index of a register that is not SP. -/
theorem exists_reg_ne_sp (h : a.toNat < 7) : ∃ r : Reg, r.val = a.toNat ∧ r ≠ sp := by
  obtain ⟨r, hr⟩ := exists_reg (Nat.le_of_lt h)
  refine ⟨r, hr, ?_⟩
  rintro rfl
  exact absurd hr.symm (Nat.ne_of_lt h)

theorem execPop_illegalRegister (h : 7 < a.toNat) :
    execPop a s = .next (faultState s (.illegalRegister a) Op.pop.opcode) :=
  commit_bind_error (regOperand_illegal h)

/-- Once the register operand is legal, the rest of POP's rule is about a register. -/
theorem execPop_of_val (hr : r.val = a.toNat) :
    execPop a s = commit Op.pop.opcode s (destOperand r >>= fun rd => topOfStack s >>= fun v =>
      seqPc Op.pop.opcode s >>= fun n => pure ((s.setReg rd v).dropTop.setPc n)) :=
  commit_bind_ok (regOperand_of_val hr)

theorem execPop_spWrite (hsp : sp.val = a.toNat) :
    execPop a s = .next (faultState s .spWrite Op.pop.opcode) :=
  (execPop_of_val hsp).trans (commit_bind_error destOperand_sp)

/-- Once the destination is legal, the stack bound is tested next. -/
theorem execPop_of_dest (hr : r.val = a.toNat) (hsp : r ≠ sp) :
    execPop a s = commit Op.pop.opcode s (topOfStack s >>= fun v =>
      seqPc Op.pop.opcode s >>= fun n => pure ((s.setReg r v).dropTop.setPc n)) :=
  (execPop_of_val hr).trans (commit_bind_ok (destOperand_other hsp))

/-- Once SP is below 255, only the advance is left to test. -/
theorem execPop_of_top (hr : r.val = a.toNat) (hsp : r ≠ sp) (htop : s.reg sp ≠ 255) :
    execPop a s = commit Op.pop.opcode s (seqPc Op.pop.opcode s >>= fun n =>
      pure ((s.setReg r (s.memRead (s.reg sp))).dropTop.setPc n)) :=
  (execPop_of_dest hr hsp).trans (commit_bind_ok (topOfStack_ok htop))

/-! Writing a register other than SP and then raising SP touches those two registers alone. -/

theorem setReg_dropTop_dest (hsp : r ≠ sp) : (s.setReg r v).dropTop.reg r = v := by
  rw [dropTop_other _ hsp, reg_setReg_same]

theorem setReg_dropTop_sp_toNat (hsp : r ≠ sp) (htop : s.reg sp ≠ 255) :
    ((s.setReg r v).dropTop.reg sp).toNat = (s.reg sp).toNat + 1 := by
  have hkept : (s.setReg r v).reg sp = s.reg sp := reg_setReg_other s r v hsp.symm
  rw [dropTop_sp_toNat (hkept ▸ htop), hkept]

theorem regsKeptBut_setReg_dropTop (s : State) (r : Reg) (v : Byte) :
    RegsKeptBut s (s.setReg r v).dropTop [r, sp] := by
  intro q hq
  obtain ⟨hqr, hqsp⟩ : q ≠ r ∧ q ≠ sp := by simpa using hq
  rw [dropTop_other _ hqsp, reg_setReg_other s r v hqr]

end Pop

/-- Settles O22: the register, the destination, the stack bound and the advance are tested in that order (R111), and
what is left is the write of Ra, the new SP and the advance (R93, R95; the spec's decisions D2, D11 and D13). -/
theorem popLoadsFromTheStackPointer : Obligations.PopLoadsFromTheStackPointer := by
  refine ⟨fetches_row .pop, fun a s => ⟨execPop_illegalRegister, fun h7 => execPop_spWrite h7.symm,
    fun ha hempty => ?_, fun ha htop hpast => ?_, fun ra hra hsp htop hfits => ?_⟩⟩
  · obtain ⟨ra, hra, hsp⟩ := exists_reg_ne_sp ha
    exact (execPop_of_dest hra hsp).trans (commit_bind_error (topOfStack_underflow hempty))
  · obtain ⟨ra, hra, hsp⟩ := exists_reg_ne_sp ha
    exact (execPop_of_top hra hsp htop).trans (commit_bind_error (seqPc_row_past .pop hpast))
  · obtain ⟨n, hn, hpc⟩ := exists_seqPc_row .pop hfits
    exact ⟨(s.setReg ra (s.memRead (s.reg sp))).dropTop.setPc n,
      (execPop_of_top hra hsp htop).trans (commit_bind_ok hn), setReg_dropTop_dest hsp,
      setReg_dropTop_sp_toNat hsp htop, regsKeptBut_setReg_dropTop s ra _, hpc, fun _ => rfl, rfl, rfl, rfl, rfl⟩

/-! #### The round trip -/

/-- Settles O28, from what PUSH and POP each do: POP reads the byte PUSH stored, at the address PUSH left in SP, and
raises SP back; the other registers are in both frames (R95). -/
theorem pushThenPopRestoresTheRegisters : Obligations.PushThenPopRestoresTheRegisters := by
  intro a s ha hroom hfits
  obtain ⟨ra, hra, hsp⟩ := exists_reg_ne_sp ha
  obtain ⟨-, hpush⟩ := pushStoresBelowTheStackPointer
  obtain ⟨-, -, -, hpush⟩ := hpush a s
  obtain ⟨t, ht, haddr, hstored, -, htsp, htregs, htpc, -⟩ := hpush ra hra hroom (by omega)
  have hpos : 0 < (s.reg sp).toNat := Nat.pos_of_ne_zero fun h => hroom (BitVec.eq_of_toNat_eq h)
  have hbelow : (t.reg sp).toNat + 1 = (s.reg sp).toNat := by rw [htsp, haddr]; omega
  have htop : t.reg sp ≠ 255 := by have := (s.reg sp).isLt; bv_omega
  obtain ⟨-, hpop⟩ := popLoadsFromTheStackPointer
  obtain ⟨-, -, -, -, hpop⟩ := hpop a t
  obtain ⟨u, hu, hloaded, husp, huregs, hupc, -⟩ := hpop ra hra hsp htop (by omega)
  refine ⟨t, u, ht, hu, fun q _ => ?_, by omega⟩
  by_cases hqsp : q = sp
  · rw [hqsp]; exact BitVec.eq_of_toNat_eq (husp.trans hbelow)
  by_cases hqra : q = ra
  · rw [hqra, hloaded, htsp, hstored]
  · rw [huregs q (by simp [hqra, hqsp]), htregs q (by simp [hqsp])]

end Sys2Proof.Machine

/-! ### Control transfer: CALL, RET, JMP, JEQ and JNE (44_control_transfer.md) -/

namespace Sys2Proof.Machine

open Sys2Proof.Claims

/-! #### CALL -/

section Call

variable {a v : Byte} {s : State} {ra : Reg}

/-- The return address is the byte after CALL's operand (R72, R97). -/
theorem returnAddress_call_past (h : s.pc.toNat + 2 > 255) :
    returnAddress Op.call.opcode s = .error (.oorReturnAddress (s.pc.toNat + 2)) := returnAddress_past h

theorem exists_returnAddress_call (h : s.pc.toNat + 2 ≤ 255) :
    ∃ v, returnAddress Op.call.opcode s = .ok v ∧ v.toNat = s.pc.toNat + 2 :=
  ⟨_, returnAddress_ok h, Nat.mod_eq_of_lt (Nat.lt_succ_of_le h)⟩

theorem execCall_illegalRegister (h : 7 < a.toNat) :
    execCall a s = .next (faultState s (.illegalRegister a) Op.call.opcode) :=
  commit_bind_error (regOperand_illegal h)

/-- Once the register operand is legal, the target is what the register holds before SP changes (D14). -/
theorem execCall_of_val (hra : ra.val = a.toNat) :
    execCall a s = commit Op.call.opcode s (returnAddress Op.call.opcode s >>= fun v =>
      pushByte v s >>= fun t => pure (t.setPc (pcOfByte (s.reg ra)))) :=
  commit_bind_ok (regOperand_of_val hra)

/-- Once the return address is in memory, only the stack bound is left to test. -/
theorem execCall_of_returnAddress (hra : ra.val = a.toNat) (hv : returnAddress Op.call.opcode s = .ok v) :
    execCall a s = commit Op.call.opcode s
      (pushByte v s >>= fun t => pure (t.setPc (pcOfByte (s.reg ra)))) :=
  (execCall_of_val hra).trans (commit_bind_ok hv)

end Call

/-- Settles O23: the register, the return address and the stack bound are tested in that order (R111), and what is left
is the one memory write, the new SP and the jump (R93, R97; the spec's decisions D2, D9, D10 and D14). -/
theorem callPushesTheReturnAddress : Obligations.CallPushesTheReturnAddress := by
  refine ⟨fetches_row .call, fun a s => ⟨execCall_illegalRegister, fun ha hpast => ?_, fun ha hfits hfull => ?_,
    fun ra hra hfits hroom => ?_⟩⟩
  · obtain ⟨ra, hra⟩ := exists_reg ha
    exact (execCall_of_val hra).trans (commit_bind_error (returnAddress_call_past hpast))
  · obtain ⟨ra, hra⟩ := exists_reg ha
    obtain ⟨v, hv, -⟩ := exists_returnAddress_call hfits
    exact (execCall_of_returnAddress hra hv).trans (commit_bind_error (pushByte_overflow hfull))
  · obtain ⟨v, hv, hreturn⟩ := exists_returnAddress_call hfits
    have hstored : (Memory.write s.mem (pushAddress s).toNat v).read (pushAddress s).toNat = v :=
      read_write_same s.mem _ _
    exact ⟨((s.memWrite (pushAddress s) v).setReg sp (pushAddress s)).setPc (pcOfByte (s.reg ra)),
      (execCall_of_returnAddress hra hv).trans (commit_bind_ok (pushByte_ok hroom)), pushAddress_toNat hroom,
      (congrArg BitVec.toNat hstored).trans hreturn, fun _ => read_write_other s.mem _, reg_setReg_same _ sp _,
      regsKeptBut_write (s.memWrite _ _) sp _ _, pcOfByte_toNat _, rfl, rfl, rfl, rfl⟩

/-! #### RET -/

/-- Settles O24: the stack bound is RET's one test, and what is left is the new SP and the jump, with no advance (R78,
R93, R98; the spec's decisions D2 and D11). -/
theorem retPopsThePc : Obligations.RetPopsThePc := by
  refine ⟨fetches_row .ret, fun s => ⟨fun hempty => commit_bind_error (topOfStack_underflow hempty), fun htop => ?_⟩⟩
  exact ⟨s.dropTop.setPc (pcOfByte (s.memRead (s.reg sp))), commit_bind_ok (topOfStack_ok htop), pcOfByte_toNat _,
    dropTop_sp_toNat htop, regsKeptBut_write s sp _ _, fun _ => rfl, rfl, rfl, rfl, rfl⟩

/-! #### CALL, then RET -/

/-- Settles O29, from what CALL and RET each do: CALL leaves SP below 255 and its return address there, so RET pops that
address and raises SP back (R97, R98). -/
theorem callThenRetResumesAfterTheCall : Obligations.CallThenRetResumesAfterTheCall := by
  intro a s ha hroom hfits
  obtain ⟨ra, hra⟩ := exists_reg ha
  obtain ⟨-, hcall⟩ := callPushesTheReturnAddress
  obtain ⟨-, -, -, hcall⟩ := hcall a s
  obtain ⟨t, ht, haddr, hstored, -, htsp, -⟩ := hcall ra hra hfits hroom
  refine ⟨t, ht, fun r hrsp hrbyte => ?_⟩
  have hpos : 0 < (s.reg sp).toNat := Nat.pos_of_ne_zero fun h => hroom (BitVec.eq_of_toNat_eq h)
  have hbelow : (r.reg sp).toNat + 1 = (s.reg sp).toNat := by rw [hrsp, htsp, haddr]; omega
  have htop : r.reg sp ≠ 255 := by have := (s.reg sp).isLt; bv_omega
  obtain ⟨-, hret⟩ := retPopsThePc
  obtain ⟨-, hret⟩ := hret r
  obtain ⟨u, hu, hupc, husp, -⟩ := hret htop
  refine ⟨u, hu, ?_, BitVec.eq_of_toNat_eq (husp.trans hbelow)⟩
  rw [hupc, hrsp, hrbyte, htsp, hstored]

/-! #### A jump writes pc alone -/

/-- Everything but pc is in the frame of a write of pc (R35, R78). -/
theorem setPc_frame (s : State) (n : PcWord) :
    RegsKeptBut s (s.setPc n) [] ∧ MemoryKept s (s.setPc n) ∧ FlagsKept s (s.setPc n) ∧
      (s.setPc n).out = s.out ∧ StillGoing s (s.setPc n) :=
  ⟨fun _ _ => rfl, fun _ => rfl, rfl, rfl, rfl, rfl⟩

/-- Settles O25: the register is JMP's one test, and a jump needs no range check (R78, R99; the spec's decision D2). -/
theorem jmpSetsThePcFromARegister : Obligations.JmpSetsThePcFromARegister :=
  ⟨fetches_row .jmp, fun _ s => ⟨fun ha => commit_bind_error (regOperand_illegal ha), fun ra hra =>
    ⟨s.setPc (pcOfByte (s.reg ra)), commit_bind_ok (regOperand_of_val hra), pcOfByte_toNat _, setPc_frame s _⟩⟩⟩

/-! #### The conditional branches -/

/-- The instructions of a one-register row of the table whose meaning is the shared rule `branchIf`, taken where `taken`
holds of the flags. -/
def BranchesOnFlags (mk : Byte → Instr) (o : Op) (taken : Flags → Bool) : Prop :=
  o.format = .f1r ∧ ∀ a s, exec (mk a) s = commit o.opcode s (branchIf (taken s.flags) o.opcode a s)

section Branch

variable {mk : Byte → Instr} {o : Op} {taken : Flags → Bool} {cond : Bool} {a ir : Byte} {s : State} {ra : Reg}

theorem branchIf_illegalRegister (ha : 7 < a.toNat) :
    commit ir s (branchIf cond ir a s) = .next (faultState s (.illegalRegister a) ir) :=
  commit_bind_error (regOperand_illegal ha)

theorem branchIf_taken (hra : ra.val = a.toNat) (hcond : cond = true) :
    commit ir s (branchIf cond ir a s) = .next (s.setPc (pcOfByte (s.reg ra))) := by
  rw [hcond]
  exact commit_bind_ok (regOperand_of_val hra)

/-- Not taken, only the advance is left to test. -/
theorem branchIf_notTaken (ha : a.toNat ≤ 7) (hcond : cond = false) :
    commit ir s (branchIf cond ir a s) = commit ir s (seqPc ir s >>= fun n => pure (s.setPc n)) := by
  obtain ⟨ra, hra⟩ := exists_reg ha
  rw [hcond]
  exact commit_bind_ok (regOperand_of_val hra)

/-- The shared rule: the register is tested first, and the advance only where the branch is not taken (R77, R111). -/
theorem BranchesOnFlags.branchesIf (h : BranchesOnFlags mk o taken) : BranchesIf mk o.opcode taken := by
  obtain ⟨hformat, hexec⟩ := h
  intro a s
  rw [hexec]
  refine ⟨branchIf_illegalRegister, fun ha ht hpast => ?_, fun ha ht hfits => ?_, fun ra hra ht => ?_⟩
  · have hadvance := seqPc_row_past (s := s) o (by rwa [hformat])
    rw [hformat] at hadvance
    exact (branchIf_notTaken ha ht).trans (commit_bind_error hadvance)
  · obtain ⟨n, hn, hpc⟩ := exists_seqPc_row (s := s) o (by rwa [hformat])
    rw [hformat] at hpc
    exact ⟨s.setPc n, (branchIf_notTaken ha ht).trans (commit_bind_ok hn), hpc, setPc_frame s n⟩
  · exact ⟨s.setPc (pcOfByte (s.reg ra)), branchIf_taken hra ht, pcOfByte_toNat _, setPc_frame s _⟩

end Branch

theorem branchesOnFlags_jeq : BranchesOnFlags .jeq .jeq fun f => f.eq := ⟨rfl, fun _ _ => rfl⟩
theorem branchesOnFlags_jne : BranchesOnFlags .jne .jne fun f => !f.eq := ⟨rfl, fun _ _ => rfl⟩

/-- Settles O26: JEQ is the shared rule with EQ as its condition (R100; the spec's decision D19). -/
theorem jeqJumpsWhenEqualIsSet : Obligations.JeqJumpsWhenEqualIsSet :=
  ⟨fetches_row .jeq, branchesOnFlags_jeq.branchesIf⟩

/-- Settles O27: JNE is the shared rule with EQ clear as its condition (R101; the spec's decision D19). -/
theorem jneJumpsWhenEqualIsClear : Obligations.JneJumpsWhenEqualIsClear :=
  ⟨fetches_row .jne, branchesOnFlags_jne.branchesIf⟩

end Sys2Proof.Machine

/-! ### The fault codes and their classes (60_exceptions.md) -/

namespace Sys2Proof.Machine

/-! The model defines each class by bounds on the code; the tables of R108, R109 and R110 list the codes. -/

section Classes

variable {c : FaultCause}

theorem isDecodeError_iff_code_mem : c.isDecodeError = true ↔ c.code ∈ [1, 2, 3] :=
  calc c.isDecodeError = true
    _ ↔ 1 ≤ c.code ∧ c.code < 1 + 3 := by simp [FaultCause.isDecodeError, Nat.lt_succ_iff]
    _ ↔ c.code ∈ List.range' 1 3 := List.mem_range'_1.symm

theorem isArithmeticError_iff_code_eq : c.isArithmeticError = true ↔ c.code = 4 := decide_eq_true_iff

theorem isOutOfRange_iff_code_mem : c.isOutOfRange = true ↔ c.code ∈ [5, 6, 7, 8, 9] :=
  calc c.isOutOfRange = true
    _ ↔ 5 ≤ c.code ∧ c.code < 5 + 5 := by simp [FaultCause.isOutOfRange, Nat.lt_succ_iff]
    _ ↔ c.code ∈ List.range' 5 5 := List.mem_range'_1.symm

end Classes

/-- Settles O48: the infos and codes are the rows of the two tables, and each class is the run of codes between its
bounds (R105, R106, R108 to R110; the numbers are the spec's decision D15). -/
theorem faultCodesInfosAndClassesAreTheTables : Obligations.FaultCodesInfosAndClassesAreTheTables :=
  fun _ _ _ _ _ _ _ => ⟨rfl, rfl, rfl, rfl, fun _ =>
    ⟨isDecodeError_iff_code_mem, isArithmeticError_iff_code_eq, isOutOfRange_iff_code_mem⟩⟩

end Sys2Proof.Machine

/-! ### The reset and the run under fuel (70_reset_and_hazards.md) -/

namespace Sys2Proof.Machine

/-- The reset state is the boot of the empty image under the default configuration (R9, R37, R121). -/
theorem bootState_nil : bootState Cfg.default [] = State.reset := rfl

/-- Settles O32: every booted state meets the invariant, and the reset state is one of them (R122; memory's canonical
form is the model's own, log entry 2). -/
theorem resetMeetsTheInvariant : Obligations.ResetMeetsTheInvariant := by
  have hinv := bootState_inv Cfg.default []
  rwa [bootState_nil] at hinv

/-! #### A run under fuel stops at a terminal state or pays one unit for one step -/

section Run

variable {fuel : Nat} {s t u : State}

theorem terminal_of_running (h : s.status = .running) : s.terminal = false := by simp [State.terminal, h]

/-- A terminal state is its own verdict, whatever the fuel (R125). -/
theorem runFor_terminal (h : s.terminal = true) (fuel : Nat) : runFor fuel s = some s := by
  cases fuel with
  | zero => exact if_pos h
  | succ fuel => exact if_pos h

/-- Only a Running state has a step (R69), so the run does not stop before it. -/
theorem runFor_succ_of_step (h : step s = .next u) : runFor (fuel + 1) s = runFor fuel u := by
  obtain ⟨hrun, -⟩ := step_cases h
  simp [runFor, terminal_of_running hrun, h]

/-- The run's induction: what holds of a terminal state under any fuel, and goes back over a step that costs one unit,
holds of every run that ends in a verdict `t`. -/
theorem runFor_some_induction {motive : Nat → State → Prop} (h : runFor fuel s = some t)
    (stop : t.terminal = true → ∀ n, motive n t)
    (back : ∀ {n s u}, step s = .next u → motive n u → motive (n + 1) s) : motive fuel s := by
  induction fuel generalizing s with
  | zero =>
    by_cases hs : s.terminal = true
    · obtain rfl : s = t := by simpa [runFor_terminal hs] using h
      exact stop hs 0
    · simp [runFor, hs] at h
  | succ n ih =>
    by_cases hs : s.terminal = true
    · obtain rfl : s = t := by simpa [runFor_terminal hs] using h
      exact stop hs (n + 1)
    · cases hstep : step s with
      | next u =>
        rw [runFor_succ_of_step hstep] at h
        exact back hstep (ih h)
      | fault | refused => simp [runFor, hs, hstep] at h

theorem runFor_some_terminal (h : runFor fuel s = some t) : t.terminal = true :=
  runFor_some_induction (motive := fun _ _ => t.terminal = true) h (fun ht _ => ht) fun _ ih => ih

/-- More fuel pays for the same steps to the same terminal state, and what is left over there is not used (R130). -/
theorem runFor_add (more : Nat) (h : runFor fuel s = some t) : runFor (fuel + more) s = some t := by
  refine runFor_some_induction (motive := fun n s => runFor (n + more) s = some t) h
    (fun ht n => runFor_terminal ht (n + more)) fun {n s u} hstep ih => ?_
  calc runFor (n + 1 + more) s
    _ = runFor (n + more + 1) s := by rw [Nat.add_right_comm]
    _ = runFor (n + more) u := runFor_succ_of_step hstep
    _ = some t := ih

end Run

/-- Settles O49: by the run's induction the verdict is terminal, and more fuel gives it again (R130, R131; the spec's
decision D31). -/
theorem moreFuelKeepsTheVerdict : Obligations.MoreFuelKeepsTheVerdict :=
  fun _ more _ _ h => ⟨runFor_add more h, runFor_some_terminal h⟩

end Sys2Proof.Machine
